-- ==== Sys2Proof/Word.lean ====
section
/-! DEFINITION. The word types of the LS-8 core: bytes, the 9-bit program counter, register indices. -/

namespace Sys2Proof

/-- A byte: a register, a memory cell, the flags register, an opcode or operand byte (00_scope.md R10: unsigned, 0 to 255). -/
abbrev Byte := BitVec 8

/-- The program counter's 9 bits (10_state.md R27, decision D2). -/
abbrev PcWord := BitVec 9

/-- The index of a register, 0 to 7 (10_state.md R20). -/
abbrev RegIdx := Fin 8

end Sys2Proof
end

