-- ==== Sys2Proof/Config.lean ====
section
/-! DEFINITION. What is fixed for the machine before it runs: the parameters of 00_scope.md R7 and R8, the names of the
34 instructions and of the four formats, and the reset image of memory. The opcode BYTES stand in Sys2Proof/Decode.lean. -/

namespace Sys2Proof

namespace Config

/-- MEM_SIZE (00_scope.md R7): 256 cells, addresses 0 to 255. -/
abbrev memSize : Nat := 256

/-- SP_INDEX (00_scope.md R7): register 7 is the stack pointer. -/
abbrev spIndex : RegIdx := 7

/-- SP_RESET (00_scope.md R7, 10_state.md R25). -/
abbrev spReset : Byte := 0xF4

/-- PC_RESET (00_scope.md R7, 10_state.md R27). -/
abbrev pcReset : PcWord := 0

/-- FL_RESET (00_scope.md R7, 10_state.md R36). -/
abbrev flReset : Byte := 0

/-- LOAD_BASE (00_scope.md R7, 20_memory.md R57). -/
abbrev loadBase : Nat := 0

/-- What a cell that the memory list does not list holds. It only fixes how a 256-byte image is written down: any image is
some list of cells (Laws/Memory.lean), so it says nothing about the hardware by itself (log entry 1). -/
abbrev unlistedByte : Byte := 0

/-- The value that State.reset takes for the open parameter MEM_INIT (10_state.md R45): every cell zero.
DESIGN CHOICE, unsafe (log entry 1): the spec leaves MEM_INIT open; State.resetWith takes it as an argument. -/
abbrev memInit : List (Nat × Byte) := []

end Config

/-- The 34 instruction names (30_encoding.md R99), in the order of the opcode table (30_encoding.md R88). -/
inductive Opcode where
  | ldi | prn | pra
  | add | sub | mul | div | mod | inc | dec
  | and | or | xor | not | shl | shr
  | cmp
  | push | pop
  | call | ret | jmp | jeq | jne | jgt | jlt | jge | jle
  | st | ld
  | nop | hlt | int | iret
  deriving DecidableEq, Repr

/-- The four instruction formats (30_encoding.md R81). -/
inductive Format where
  /-- One byte: the opcode. -/
  | f0
  /-- Two bytes: the opcode and a register operand. -/
  | f1
  /-- Three bytes: the opcode and two register operands. -/
  | f2r
  /-- Three bytes: the opcode, a register operand and an immediate. -/
  | f2i
  deriving DecidableEq, Repr

end Sys2Proof
end

