-- ==== Sys2Proof/Syntax.lean ====
section
/-! DEFINITION. The instructions: one constructor per row of spec/opcode_table.json, in its order. -/

namespace Sys2Proof

/-- An instruction with its operand bytes as they stand in memory. A register operand is the WHOLE operand byte
(30_encoding.md R85): a byte above 7 is decoded like any other and raises InvalidRegister when the instruction executes
(30_encoding.md R93), so it is kept here, and legality is a predicate of its own (Sys2Proof/WellFormed.lean). -/
inductive Instr where
  /-- LDI (41 R130): load the immediate B into register A. -/
  | ldi (A B : Byte)
  /-- PRN (41 R131): print register A as a number. -/
  | prn (A : Byte)
  /-- PRA (41 R132): print register A as a character. -/
  | pra (A : Byte)
  /-- ADD (42 R144). -/
  | add (A B : Byte)
  /-- SUB (42 R145). -/
  | sub (A B : Byte)
  /-- MUL (42 R146). -/
  | mul (A B : Byte)
  /-- DIV (42 R147). -/
  | div (A B : Byte)
  /-- MOD (42 R148). -/
  | mod (A B : Byte)
  /-- INC (42 R149). -/
  | inc (A : Byte)
  /-- DEC (42 R150). -/
  | dec (A : Byte)
  /-- AND (43 R160). -/
  | and (A B : Byte)
  /-- OR (43 R161). -/
  | or (A B : Byte)
  /-- XOR (43 R162). -/
  | xor (A B : Byte)
  /-- NOT (43 R163). -/
  | not (A : Byte)
  /-- SHL (43 R164): the amount is the value of register B. -/
  | shl (A B : Byte)
  /-- SHR (43 R165): the amount is the value of register B. -/
  | shr (A B : Byte)
  /-- CMP (44 R180). -/
  | cmp (A B : Byte)
  /-- PUSH (45 R191). -/
  | push (A : Byte)
  /-- POP (45 R192). -/
  | pop (A : Byte)
  /-- CALL (46 R201). -/
  | call (A : Byte)
  /-- RET (46 R202). -/
  | ret
  /-- JMP (46 R200). -/
  | jmp (A : Byte)
  /-- JEQ (46 R205). -/
  | jeq (A : Byte)
  /-- JNE (46 R206). -/
  | jne (A : Byte)
  /-- JGT (46 R207). -/
  | jgt (A : Byte)
  /-- JLT (46 R208). -/
  | jlt (A : Byte)
  /-- JGE (46 R209). -/
  | jge (A : Byte)
  /-- JLE (46 R210). -/
  | jle (A : Byte)
  /-- ST (47 R220): register A holds the address, register B the value. -/
  | st (A B : Byte)
  /-- LD (47 R221): register A is the destination, register B holds the address. -/
  | ld (A B : Byte)
  /-- NOP (48 R230). -/
  | nop
  /-- HLT (48 R232). -/
  | hlt
  /-- INT (48 R233): the operand byte is fetched and ignored. -/
  | int (A : Byte)
  /-- IRET (48 R234). -/
  | iret
  deriving DecidableEq, Repr

end Sys2Proof
end

