-- ==== Sys2Proof/WellFormed.lean ====
section
/-! DEFINITION. Which operand bytes are register operands, and when they are legal (30_encoding.md R85, R87). -/

namespace Sys2Proof

/-- The operand bytes that the instruction takes as register indices and checks, in the order it checks them
(60_exceptions.md R243). LDI's second operand is an immediate (30_encoding.md R86) and INT's operand is ignored
(30_encoding.md R87), so neither is listed. -/
def Instr.regOperands : Instr → List Byte
  | .ldi A _ | .prn A | .pra A | .inc A | .dec A | .not A | .push A | .pop A | .call A | .jmp A
  | .jeq A | .jne A | .jgt A | .jlt A | .jge A | .jle A => [A]
  | .add A B | .sub A B | .mul A B | .div A B | .mod A B | .and A B | .or A B | .xor A B | .shl A B | .shr A B
  | .cmp A B | .st A B | .ld A B => [A, B]
  | .ret | .nop | .hlt | .int _ | .iret => []

/-- Every register operand names a register: "index must be in [0,7]" (30_encoding.md R85). An instruction that fails this
check still decodes and has a meaning: it raises InvalidRegister (30_encoding.md R93). -/
def Instr.wellFormed (i : Instr) : Bool :=
  i.regOperands.all fun o => decide (o.toNat < 8)

end Sys2Proof
end

