-- ==== Sys2Proof/Decode.lean ====
section
/-! DEFINITION. The opcode map of 30_encoding.md R88, the decoder and the encoder. The 34 byte values stand in ONE place,
Opcode.byte (decision D3 asks for one table). -/

namespace Sys2Proof

/-- The opcode byte of each instruction (30_encoding.md R88).
UNVERIFIED (log entry 7): the source gives no byte values; the spec adopts the public LS-8 ones by decision D3. -/
def Opcode.byte : Opcode → Byte
  | .ldi => 0x82 | .prn => 0x47 | .pra => 0x48
  | .add => 0xA0 | .sub => 0xA1 | .mul => 0xA2 | .div => 0xA3 | .mod => 0xA4
  | .inc => 0x65 | .dec => 0x66
  | .and => 0xA8 | .or => 0xAA | .xor => 0xAB | .not => 0x69 | .shl => 0xAC | .shr => 0xAD
  | .cmp => 0xA7
  | .push => 0x45 | .pop => 0x46
  | .call => 0x50 | .ret => 0x11 | .jmp => 0x54
  | .jeq => 0x55 | .jne => 0x56 | .jgt => 0x57 | .jlt => 0x58 | .jge => 0x5A | .jle => 0x59
  | .st => 0x84 | .ld => 0x83
  | .nop => 0x00 | .hlt => 0x01 | .int => 0x52 | .iret => 0x13

/-- The format of each instruction (30_encoding.md R81). -/
def Opcode.format : Opcode → Format
  | .nop | .hlt | .ret | .iret => .f0
  | .prn | .pra | .inc | .dec | .not | .push | .pop | .call | .jmp | .jeq | .jne | .jgt | .jlt | .jge | .jle | .int => .f1
  | .add | .sub | .mul | .div | .mod | .and | .or | .xor | .shl | .shr | .cmp | .st | .ld => .f2r
  | .ldi => .f2i

/-- The number of operand bytes of a format (30_encoding.md R81). -/
def Format.operands : Format → Nat
  | .f0 => 0
  | .f1 => 1
  | .f2r | .f2i => 2

/-- The 34 opcodes, in the order of 30_encoding.md R99. -/
def Opcode.all : List Opcode :=
  [.ldi, .prn, .pra, .add, .sub, .mul, .div, .mod, .inc, .dec, .and, .or, .xor, .not, .shl, .shr, .cmp]
    ++ [.push, .pop, .call, .ret, .jmp, .jeq, .jne, .jgt, .jlt, .jge, .jle, .st, .ld, .nop, .hlt, .int, .iret]

/-- The operand count in bits 7:6 of a first byte, legal or not: "((raw_byte >> 6) & 0b11)" (30_encoding.md R82). -/
def operandCount (b : Byte) : Nat :=
  ((b >>> 6) &&& 0b11#8).toNat

/-- The lookup of a first byte: all 8 bits must match (30_encoding.md R83). -/
def Opcode.ofByte (b : Byte) : Option Opcode :=
  Opcode.all.find? fun op => decide (op.byte = b)

/-- The instruction that an opcode and its operand bytes make; a format without the second or any operand byte does not
look at it (30_encoding.md R84). -/
def Opcode.instr (op : Opcode) (A B : Byte) : Instr :=
  match op with
  | .ldi => .ldi A B | .prn => .prn A | .pra => .pra A
  | .add => .add A B | .sub => .sub A B | .mul => .mul A B | .div => .div A B | .mod => .mod A B
  | .inc => .inc A | .dec => .dec A
  | .and => .and A B | .or => .or A B | .xor => .xor A B | .not => .not A | .shl => .shl A B | .shr => .shr A B
  | .cmp => .cmp A B
  | .push => .push A | .pop => .pop A
  | .call => .call A | .ret => .ret | .jmp => .jmp A
  | .jeq => .jeq A | .jne => .jne A | .jgt => .jgt A | .jlt => .jlt A | .jge => .jge A | .jle => .jle A
  | .st => .st A B | .ld => .ld A B
  | .nop => .nop | .hlt => .hlt | .int => .int A | .iret => .iret

/-- Why the decoder refuses a sequence of bytes. -/
inductive DecodeError where
  /-- There is no byte to read an opcode from. -/
  | noByte
  /-- The first byte is none of the 34 opcode values (30_encoding.md R91). -/
  | illegalOpcode (op : Byte)
  /-- The opcode is legal and fewer bytes follow than it has operands. -/
  | missingOperand (op : Opcode)
  deriving DecidableEq, Repr

/-- The decoder: the instruction at the head of a sequence of bytes and the bytes after it (30_encoding.md R80 to R85).
A register operand byte above 7 is no decoding error (30_encoding.md R93). -/
def decode : List Byte → Except DecodeError (Instr × List Byte)
  | [] => .error .noByte
  | b :: rest =>
    match Opcode.ofByte b with
    | none => .error (.illegalOpcode b)
    | some op =>
      match op.format.operands, rest with
      | 0, _ => .ok (op.instr 0 0, rest)
      | 1, A :: rest' => .ok (op.instr A 0, rest')
      | 2, A :: B :: rest' => .ok (op.instr A B, rest')
      | _, _ => .error (.missingOperand op)

/-- The opcode of an instruction. -/
def Instr.opcode : Instr → Opcode
  | .ldi _ _ => .ldi | .prn _ => .prn | .pra _ => .pra
  | .add _ _ => .add | .sub _ _ => .sub | .mul _ _ => .mul | .div _ _ => .div | .mod _ _ => .mod
  | .inc _ => .inc | .dec _ => .dec
  | .and _ _ => .and | .or _ _ => .or | .xor _ _ => .xor | .not _ => .not | .shl _ _ => .shl | .shr _ _ => .shr
  | .cmp _ _ => .cmp
  | .push _ => .push | .pop _ => .pop
  | .call _ => .call | .ret => .ret | .jmp _ => .jmp
  | .jeq _ => .jeq | .jne _ => .jne | .jgt _ => .jgt | .jlt _ => .jlt | .jge _ => .jge | .jle _ => .jle
  | .st _ _ => .st | .ld _ _ => .ld
  | .nop => .nop | .hlt => .hlt | .int _ => .int | .iret => .iret

/-- The operand bytes of an instruction in address order (20_memory.md R50). -/
def Instr.operandBytes : Instr → List Byte
  | .ldi A B | .add A B | .sub A B | .mul A B | .div A B | .mod A B | .and A B | .or A B | .xor A B | .shl A B
  | .shr A B | .cmp A B | .st A B | .ld A B => [A, B]
  | .prn A | .pra A | .inc A | .dec A | .not A | .push A | .pop A | .call A | .jmp A | .jeq A | .jne A | .jgt A
  | .jlt A | .jge A | .jle A | .int A => [A]
  | .ret | .nop | .hlt | .iret => []

/-- The encoder: opcode byte, then A, then B, at ascending addresses (30_encoding.md R81, 20_memory.md R50). -/
def encode (i : Instr) : List Byte :=
  i.opcode.byte :: i.operandBytes

/-- The length of an instruction in bytes (30_encoding.md R80). -/
def Instr.length (i : Instr) : Nat :=
  (encode i).length

/-- The three bytes of a number in the numbering of spec/opcode_table.json: the first byte is bits 7:0, the second bits 15:8,
the third bits 23:16. Bits from nbits up are taken as 0. -/
def tableBytes (nbits w : Nat) : List Byte :=
  let v := w % 2 ^ nbits
  [BitVec.ofNat 8 v, BitVec.ofNat 8 (v / 2 ^ 8), BitVec.ofNat 8 (v / 2 ^ 16)]

/-- The instruction the decoder reads from an instruction whose bits are w. -/
def decodeTableWord (nbits w : Nat) : Option Instr :=
  match decode (tableBytes nbits w) with
  | .ok (i, _) => some i
  | .error _ => none

end Sys2Proof
end

