-- ==== Sys2Proof/Machine/State.lean ====
section
/-! DEFINITION. The state of the LS-8 core (10_state.md R41), the fault kinds, the reasons of a refusal, and the state after reset. -/

namespace Sys2Proof.Machine

/-- The six fault kinds (60_exceptions.md R240). A fault is TAKEN: raise K answers a NEXT state whose run state is
Faulted(K) (60_exceptions.md R252, R253), and that state takes no further step. So no step of this machine answers the
outcome "fault", and these names are what the run state's fault latch holds (10_state.md R39). Safe (log entry 2): the whole state
a fault leaves is kept. -/
inductive Fault where
  /-- Raised by the opcode fetch and the operand fetches above address 255, and by the load of more than 256 bytes
  (60_exceptions.md R242). Safe: the spec's own fault. -/
  | outOfBounds
  /-- Raised by every instruction with a register operand, except INT, on an operand byte above 7 (60_exceptions.md R243).
  Safe: the spec's own fault. -/
  | invalidRegister
  /-- Raised by the lookup of a first byte that is no opcode (60_exceptions.md R244). Safe: the spec's own fault. -/
  | illegalInstruction
  /-- Raised by DIV and MOD on a divisor of 0 (60_exceptions.md R245). Safe: the spec's own fault. -/
  | divisionByZero
  /-- Raised by POP and RET above address 255 (60_exceptions.md R246). Safe: the spec's own fault. -/
  | stackUnderflow
  /-- Raised by PUSH and CALL below address 0 (60_exceptions.md R247). Safe: the spec's own fault. -/
  | stackOverflow
  deriving DecidableEq, Repr

/-- Why a step has no meaning. -/
inductive Refusal where
  /-- Answered by exec for an instruction that has no meaning yet, by its mnemonic. No arm of exec answers it now. Safe:
  the machine stops where the hardware goes on. -/
  | notModelled (mnemonic : String)
  deriving DecidableEq, Repr

/-- The run state (10_state.md R38). Halted and Faulted are terminal: only a reset leaves them. -/
inductive RunState where
  | running
  | halted
  /-- Faulted(K), with the fault kind latched (10_state.md R39). -/
  | faulted (k : Fault)
  deriving DecidableEq, Repr

/-- One event at the observer port (70_reset_and_hazards.md R282): the kind and the 8-bit register value. -/
inductive Event where
  /-- (NUM, v), emitted by PRN. -/
  | num (v : Byte)
  /-- (CHR, v), emitted by PRA. -/
  | chr (v : Byte)
  deriving DecidableEq, Repr

/-- Memory (10_state.md R42): the cells that do not hold Config.unlistedByte, by rising address. -/
abbrev Memory := List Host.Cell

/-- The whole state (10_state.md R41), and the events the observer has received (10_state.md R40). -/
structure State where
  /-- R0 to R7 (10_state.md R20); register 7 is the stack pointer (10_state.md R22). -/
  regs : Vector Byte 8
  /-- The program counter, 9 bits (10_state.md R27). -/
  pc : PcWord
  /-- The flags: Equal bit 0, Greater bit 1, Less bit 2 (10_state.md R32). -/
  fl : Byte
  /-- The run state with its fault latch (10_state.md R38, R39). -/
  run : RunState
  /-- The 256 cells (10_state.md R42). -/
  mem : Memory
  /-- The events the observer has received, oldest first (10_state.md R40); no rule reads them. -/
  events : List Event
  deriving DecidableEq, Repr

/-- The state after reset (70_reset_and_hazards.md R270), the open parameter MEM_INIT being an argument (10_state.md R45). -/
def State.resetWith (memInit : Memory) : State where
  regs := #v[0, 0, 0, 0, 0, 0, 0, Config.spReset]
  pc := Config.pcReset
  fl := Config.flReset
  run := .running
  mem := memInit
  events := []

/-- The state after reset with MEM_INIT all zero (DESIGN CHOICE, log entry 1). -/
def State.reset : State :=
  State.resetWith Config.memInit

end Sys2Proof.Machine
end

