-- ==== Sys2Proof/Machine/Ops.lean ====
section
/-! DEFINITION. The named operations over registers, memory and the run state (00_scope.md R10 to R16), the bound check of the
memory port, the stack pointer controller, and taking a fault. -/

namespace Sys2Proof.Machine

/-- A pending raise K(info) (00_scope.md R14): the kind, and the diagnostic info that is not architectural state and that
no rule reads (decision D29, log entry 9). -/
structure Raised where
  /-- The fault kind K. -/
  kind : Fault
  /-- The address, opcode byte or operand byte that 60_exceptions.md R242 to R247 name, if any. -/
  info : Option Nat
  deriving DecidableEq, Repr

/-! ### Widths (00_scope.md R10) -/

/-- trunc8(v) = v mod 256, in 0 to 255 also for a negative v. -/
def trunc8 (v : Int) : Byte :=
  BitVec.ofInt 8 v

/-- zext_9(v): a byte widened with a zero top bit. -/
def zext9 (v : Byte) : PcWord :=
  v.setWidth 9

/-! ### The list of memory cells -/

/-- The byte at an address: what the list says, and Config.unlistedByte where it says nothing. -/
def Memory.read : Memory → Nat → Byte
  | [], _ => Config.unlistedByte
  | c :: m, a => if c.1 = a then c.2 else Memory.read m a

/-- Put a cell before the first cell of a higher address. -/
def Memory.insert : Memory → Nat → Byte → Memory
  | [], a, v => [(a, v)]
  | c :: m, a, v => if a < c.1 then (a, v) :: c :: m else c :: Memory.insert m a v

/-- Take the cells of an address out of the list. -/
def Memory.erase (m : Memory) (a : Nat) : Memory :=
  m.filter fun c => decide (c.1 ≠ a)

/-- Write one byte. Writing Config.unlistedByte takes the cell out, so that equal memories are equal lists. -/
def Memory.write (m : Memory) (a : Nat) (v : Byte) : Memory :=
  if v = Config.unlistedByte then m.erase a else (m.erase a).insert a v

/-- Write bytes at ascending addresses from a on. -/
def Memory.writeBytes : Memory → Nat → List Byte → Memory
  | m, _, [] => m
  | m, a, v :: vs => Memory.writeBytes (m.write a v) (a + 1) vs

/-- The bytes from address a up, n of them. -/
def Memory.bytes (m : Memory) (a n : Nat) : List Byte :=
  (List.range n).map fun k => m.read (a + k)

/-- The canonical form: addresses strictly rising, all of them in the 256 cells, and no cell equal to what an unlisted
address reads as. -/
abbrev Memory.wf (m : Memory) : Prop :=
  m.Pairwise (fun c d => c.1 < d.1) ∧ ∀ c ∈ m, c.1 < Config.memSize ∧ c.2 ≠ Config.unlistedByte

/-! ### Registers and the other state -/

/-- x[i] (00_scope.md R11). -/
def State.x (s : State) (i : RegIdx) : Byte :=
  s.regs.get i

/-- x[i] <- v (00_scope.md R11). -/
def State.setX (s : State) (i : RegIdx) (v : Byte) : State :=
  { s with regs := s.regs.set i.val v }

/-- The stack pointer is register 7 and nothing else (10_state.md R22). -/
def State.sp (s : State) : Byte :=
  s.x Config.spIndex

/-- pc <- target (00_scope.md R13). -/
def State.setPc (s : State) (target : PcWord) : State :=
  { s with pc := target }

/-- fl <- v, all 8 bits (10_state.md R33). -/
def State.setFl (s : State) (v : Byte) : State :=
  { s with fl := v }

/-- Replace the memory. -/
def State.setMem (s : State) (m : Memory) : State :=
  { s with mem := m }

/-- run <- r (10_state.md R38). -/
def State.setRun (s : State) (r : RunState) : State :=
  { s with run := r }

/-- Emit(e): the event is appended to what the observer has received (00_scope.md R15). -/
def State.emit (s : State) (e : Event) : State :=
  { s with events := s.events ++ [e] }

/-- reg(o): the WHOLE operand byte is the index; above 7 it raises InvalidRegister(o) (00_scope.md R11). -/
def reg (o : Byte) : Except Raised RegIdx :=
  if h : o.toNat < 8 then .ok ⟨o.toNat, h⟩ else .error ⟨.invalidRegister, some o.toNat⟩

/-! ### The memory port, through which every access passes (20_memory.md R65) -/

/-- MemRead(addr, 1) (00_scope.md R12). -/
def State.memRead (s : State) (addr : Nat) : Except Raised Byte :=
  if addr < Config.memSize then .ok (s.mem.read addr) else .error ⟨.outOfBounds, some addr⟩

/-- MemWrite(addr, 1, v) (00_scope.md R12): trunc8(v) is stored. -/
def State.memWrite (s : State) (addr : Nat) (v : Int) : Except Raised State :=
  if addr < Config.memSize then .ok (s.setMem (s.mem.write addr (trunc8 v))) else .error ⟨.outOfBounds, some addr⟩

/-! ### Taking a fault (60_exceptions.md R252, R253) -/

/-- raise K: the run state becomes Faulted(K); no register is saved or changed, fl, memory and pc stay, nothing is emitted
(60_exceptions.md R252). There is no return from it (60_exceptions.md R256): no operation of this file leaves Faulted(K), and
IRET is a no-op (48_system.md R234); only a reset, State.resetWith, gives a running machine again. -/
def State.raise (s : State) (r : Raised) : State :=
  s.setRun (.faulted r.kind)

/-- The end of an instruction: the state its rule leaves, or, where the rule raised, the state s before the instruction's
first write with the fault taken (60_exceptions.md R253: every rule performs all its checks before its first write). -/
def State.finish (s : State) (r : Except Raised State) : Host.Outcome State Fault Refusal :=
  match r with
  | .ok t => .next t
  | .error e => .next (s.raise e)

/-! ### The stack pointer controller (45_stack.md R190, R193) -/

/-- StackPush(v) (45_stack.md R195): with SP = 0 raise StackOverflow; else decrement SP, then write at it. The value is read
from the state after the decrement (decision D11). -/
def State.stackPush (s : State) (v : State → Int) : Except Raised State :=
  if s.sp = 0 then .error ⟨.stackOverflow, none⟩
  else
    let t := s.setX Config.spIndex (trunc8 (s.sp.toNat - 1))
    t.memWrite t.sp.toNat (v t)

/-- The increment of a pop: above 255 raise StackUnderflow (45_stack.md R193). -/
def spInc (base : Byte) : Except Raised Byte :=
  if base.toNat + 1 > 255 then .error ⟨.stackUnderflow, none⟩ else .ok (trunc8 (base.toNat + 1))

/-- The fault code on the status output (60_exceptions.md R241): 0 where there is no fault. -/
def RunState.code : RunState → Nat
  | .running | .halted => 0
  | .faulted .outOfBounds => 1
  | .faulted .invalidRegister => 2
  | .faulted .illegalInstruction => 3
  | .faulted .divisionByZero => 4
  | .faulted .stackUnderflow => 5
  | .faulted .stackOverflow => 6

end Sys2Proof.Machine
end

