-- ==== Sys2Proof/Machine/Alu.lean ====
section
/-! DEFINITION. The ALU, a pure function of two bytes (42_alu_arithmetic.md R140 to R143, 43_alu_logic_shift.md R160 to R166).
Arithmetic is computed exactly on the integers and narrowed once by trunc8. -/

namespace Sys2Proof.Machine

/-- ADD: trunc8(p + q). -/
def aluAdd (p q : Byte) : Except Raised Byte :=
  .ok (trunc8 (p.toNat + q.toNat))

/-- SUB: trunc8(p - q). -/
def aluSub (p q : Byte) : Except Raised Byte :=
  .ok (trunc8 (p.toNat - q.toNat))

/-- MUL: trunc8(p * q). -/
def aluMul (p q : Byte) : Except Raised Byte :=
  .ok (trunc8 (p.toNat * q.toNat))

/-- DIV: the floor of p / q, or DivisionByZero (R143, R147). -/
def aluDiv (p q : Byte) : Except Raised Byte :=
  if q = 0 then .error ⟨.divisionByZero, none⟩ else .ok (trunc8 ((p.toNat / q.toNat : Nat)))

/-- MOD: the remainder of p / q, or DivisionByZero (R143, R148). -/
def aluMod (p q : Byte) : Except Raised Byte :=
  if q = 0 then .error ⟨.divisionByZero, none⟩ else .ok (trunc8 ((p.toNat % q.toNat : Nat)))

/-- INC: trunc8(p + 1). -/
def aluInc (p : Byte) : Byte :=
  trunc8 (p.toNat + 1)

/-- DEC: trunc8(p - 1). -/
def aluDec (p : Byte) : Byte :=
  trunc8 (p.toNat - 1)

/-- AND (R160). -/
def aluAnd (p q : Byte) : Except Raised Byte :=
  .ok (p &&& q)

/-- OR (R161). -/
def aluOr (p q : Byte) : Except Raised Byte :=
  .ok (p ||| q)

/-- XOR (R162). -/
def aluXor (p q : Byte) : Except Raised Byte :=
  .ok (p ^^^ q)

/-- NOT: the complement within 8 bits, 255 - p (R163). -/
def aluNot (p : Byte) : Byte :=
  trunc8 (255 - p.toNat)

/-- SHL: (p * 2^q) mod 256, the amount q in full (R164, R166). -/
def aluShl (p q : Byte) : Except Raised Byte :=
  .ok (trunc8 ((p.toNat * 2 ^ q.toNat : Nat)))

/-- SHR: p div 2^q, the amount q in full (R165, R166). -/
def aluShr (p q : Byte) : Except Raised Byte :=
  .ok (trunc8 ((p.toNat / 2 ^ q.toNat : Nat)))

end Sys2Proof.Machine
end

