-- ==== Sys2Proof/Machine/Operands.lean ====
section
/-! DEFINITION. The operand forms of the instructions (30_encoding.md R81, R85 to R87) and which registers each instruction
reads and writes (10_state.md R26). -/

namespace Sys2Proof.Machine

/-- One register operand: a = reg(A), then the instruction's rule. -/
def onReg (A : Byte) (s : State) (f : RegIdx → Except Raised State) : Host.Outcome State Fault Refusal :=
  s.finish (do let a ← reg A; f a)

/-- Two register operands: a = reg(A), b = reg(B), A checked before B and both before anything else (decision D7). -/
def onRegs (A B : Byte) (s : State) (f : RegIdx → RegIdx → Except Raised State) : Host.Outcome State Fault Refusal :=
  s.finish (do let a ← reg A; let b ← reg B; f a b)

/-- The one-operand ALU form: x[a] <- op(x[a]) (42_alu_arithmetic.md R140). -/
def alu1 (op : Byte → Byte) (A : Byte) (s : State) : Host.Outcome State Fault Refusal :=
  onReg A s fun a => .ok (s.setX a (op (s.x a)))

/-- The two-operand ALU form: x[a] <- op(x[a], x[b]), where op may raise (42_alu_arithmetic.md R140). -/
def alu2 (op : Byte → Byte → Except Raised Byte) (A B : Byte) (s : State) : Host.Outcome State Fault Refusal :=
  onRegs A B s fun a b => do let v ← op (s.x a) (s.x b); .ok (s.setX a v)

/-- The effective address of a data access: the value of a register as it stands, register indirect (47_memory_access.md R222). -/
def State.address (s : State) (r : RegIdx) : Nat :=
  (s.x r).toNat

end Sys2Proof.Machine

namespace Sys2Proof

/-- The register indices an instruction writes, as operand bytes (10_state.md R26). -/
def Instr.regsWritten : Instr → List Byte
  | .ldi A _ | .add A _ | .sub A _ | .mul A _ | .div A _ | .mod A _ | .inc A | .dec A | .and A _ | .or A _ | .xor A _
  | .not A | .shl A _ | .shr A _ | .ld A _ => [A]
  | .pop A => [A, 7]
  | .push _ | .call _ | .ret => [7]
  | .prn _ | .pra _ | .cmp _ _ | .jmp _ | .jeq _ | .jne _ | .jgt _ | .jlt _ | .jge _ | .jle _ | .st _ _
  | .nop | .hlt | .int _ | .iret => []

/-- The register indices an instruction reads, as operand bytes (10_state.md R26). A conditional jump reads its register
only when it is taken. -/
def Instr.regsRead : Instr → List Byte
  | .prn A | .pra A | .inc A | .dec A | .not A | .jmp A | .jeq A | .jne A | .jgt A | .jlt A | .jge A | .jle A => [A]
  | .add A B | .sub A B | .mul A B | .div A B | .mod A B | .and A B | .or A B | .xor A B | .shl A B | .shr A B
  | .cmp A B | .st A B => [A, B]
  | .ld _ B => [B]
  | .push A | .call A => [7, A]
  | .pop _ | .ret => [7]
  | .ldi _ _ | .nop | .hlt | .int _ | .iret => []

end Sys2Proof
end

