-- ==== Sys2Proof/Machine/Arith.lean ====
section
/-! DEFINITION. ADD, SUB, MUL, DIV, MOD, INC, DEC (42_alu_arithmetic.md). -/

namespace Sys2Proof.Machine

/-- ADD (R144). -/
def execAdd (A B : Byte) (s : State) : Host.Outcome State Fault Refusal :=
  alu2 aluAdd A B s

/-- SUB (R145). -/
def execSub (A B : Byte) (s : State) : Host.Outcome State Fault Refusal :=
  alu2 aluSub A B s

/-- MUL (R146). -/
def execMul (A B : Byte) (s : State) : Host.Outcome State Fault Refusal :=
  alu2 aluMul A B s

/-- DIV (R147). -/
def execDiv (A B : Byte) (s : State) : Host.Outcome State Fault Refusal :=
  alu2 aluDiv A B s

/-- MOD (R148). -/
def execMod (A B : Byte) (s : State) : Host.Outcome State Fault Refusal :=
  alu2 aluMod A B s

/-- INC (R149). -/
def execInc (A : Byte) (s : State) : Host.Outcome State Fault Refusal :=
  alu1 aluInc A s

/-- DEC (R150). -/
def execDec (A : Byte) (s : State) : Host.Outcome State Fault Refusal :=
  alu1 aluDec A s

end Sys2Proof.Machine
end

