-- ==== Sys2Proof/Machine/Flags.lean ====
section
/-! DEFINITION. The flags (10_state.md R32 to R36): the three bits, the comparator that writes them, the six conditions that
read them. -/

namespace Sys2Proof.Machine

/-- E, Equal, bit 0 of fl (10_state.md R32). -/
def flagE (fl : Byte) : Bool :=
  fl.getLsbD 0

/-- G, Greater, bit 1 of fl (10_state.md R32). -/
def flagG (fl : Byte) : Bool :=
  fl.getLsbD 1

/-- L, Less, bit 2 of fl (10_state.md R32). -/
def flagL (fl : Byte) : Bool :=
  fl.getLsbD 2

/-- The comparator (44_compare.md R181): all 8 bits of the new fl, from an unsigned comparison. -/
def comparator (p q : Byte) : Byte :=
  if p = q then 0b00000001#8 else if p.toNat > q.toNat then 0b00000010#8 else 0b00000100#8

/-- JEQ's condition (46_control_transfer.md R204). -/
def condEq (fl : Byte) : Bool :=
  flagE fl

/-- JNE's condition (46_control_transfer.md R204). -/
def condNe (fl : Byte) : Bool :=
  !flagE fl

/-- JGT's condition (46_control_transfer.md R204). -/
def condGt (fl : Byte) : Bool :=
  flagG fl

/-- JLT's condition (46_control_transfer.md R204). -/
def condLt (fl : Byte) : Bool :=
  flagL fl

/-- JGE's condition (46_control_transfer.md R204); it is not the negation of JLT's when fl = 0. -/
def condGe (fl : Byte) : Bool :=
  flagG fl || flagE fl

/-- JLE's condition (46_control_transfer.md R204). -/
def condLe (fl : Byte) : Bool :=
  flagL fl || flagE fl

end Sys2Proof.Machine
end

