-- ==== Sys2Proof/Machine/Compare.lean ====
section
/-! DEFINITION. CMP (44_compare.md). -/

namespace Sys2Proof.Machine

/-- CMP (R180): fl is written whole, no register is written. -/
def execCmp (A B : Byte) (s : State) : Host.Outcome State Fault Refusal :=
  onRegs A B s fun a b => .ok (s.setFl (comparator (s.x a) (s.x b)))

end Sys2Proof.Machine
end

