-- ==== Sys2Proof/Machine/Control.lean ====
section
/-! DEFINITION. CALL, RET, JMP and the six conditional jumps (46_control_transfer.md). The pc of s is already advanced
(10_state.md R28). -/

namespace Sys2Proof.Machine

/-- The conditional jumps' common form (R203): the operand is checked, taken or not; if the condition holds,
pc <- zext_9(x[a]). -/
def jumpIf (cond : Byte → Bool) (A : Byte) (s : State) : Host.Outcome State Fault Refusal :=
  onReg A s fun a => .ok (if cond s.fl then s.setPc (zext9 (s.x a)) else s)

/-- CALL (R201): push pc, the address of the next instruction, truncated to 8 bits; then jump. x[a] is read after the push. -/
def execCall (A : Byte) (s : State) : Host.Outcome State Fault Refusal :=
  onReg A s fun a => do
    let t ← s.stackPush fun _ => s.pc.toNat
    .ok (t.setPc (zext9 (t.x a)))

/-- RET (R202). -/
def execRet (s : State) : Host.Outcome State Fault Refusal :=
  s.finish do
    let sp' ← spInc s.sp
    let v ← s.memRead s.sp.toNat
    .ok ((s.setX Config.spIndex sp').setPc (zext9 v))

/-- JMP (R200). -/
def execJmp (A : Byte) (s : State) : Host.Outcome State Fault Refusal :=
  onReg A s fun a => .ok (s.setPc (zext9 (s.x a)))

/-- JEQ (R205). -/
def execJeq (A : Byte) (s : State) : Host.Outcome State Fault Refusal :=
  jumpIf condEq A s

/-- JNE (R206). -/
def execJne (A : Byte) (s : State) : Host.Outcome State Fault Refusal :=
  jumpIf condNe A s

/-- JGT (R207). -/
def execJgt (A : Byte) (s : State) : Host.Outcome State Fault Refusal :=
  jumpIf condGt A s

/-- JLT (R208). -/
def execJlt (A : Byte) (s : State) : Host.Outcome State Fault Refusal :=
  jumpIf condLt A s

/-- JGE (R209). -/
def execJge (A : Byte) (s : State) : Host.Outcome State Fault Refusal :=
  jumpIf condGe A s

/-- JLE (R210). -/
def execJle (A : Byte) (s : State) : Host.Outcome State Fault Refusal :=
  jumpIf condLe A s

end Sys2Proof.Machine
end

