-- ==== Sys2Proof/Machine/LoadOutput.lean ====
section
/-! DEFINITION. LDI, PRN, PRA (41_load_immediate_and_output.md). -/

namespace Sys2Proof.Machine

/-- LDI (R130). -/
def execLdi (A B : Byte) (s : State) : Host.Outcome State Fault Refusal :=
  onReg A s fun a => .ok (s.setX a B)

/-- PRN (R131). -/
def execPrn (A : Byte) (s : State) : Host.Outcome State Fault Refusal :=
  onReg A s fun a => .ok (s.emit (.num (s.x a)))

/-- PRA (R132). -/
def execPra (A : Byte) (s : State) : Host.Outcome State Fault Refusal :=
  onReg A s fun a => .ok (s.emit (.chr (s.x a)))

end Sys2Proof.Machine
end

