-- ==== Sys2Proof/Machine/Logic.lean ====
section
/-! DEFINITION. AND, OR, XOR, NOT, SHL, SHR (43_alu_logic_shift.md). -/

namespace Sys2Proof.Machine

/-- AND (R160). -/
def execAnd (A B : Byte) (s : State) : Host.Outcome State Fault Refusal :=
  alu2 aluAnd A B s

/-- OR (R161). -/
def execOr (A B : Byte) (s : State) : Host.Outcome State Fault Refusal :=
  alu2 aluOr A B s

/-- XOR (R162). -/
def execXor (A B : Byte) (s : State) : Host.Outcome State Fault Refusal :=
  alu2 aluXor A B s

/-- NOT (R163). -/
def execNot (A : Byte) (s : State) : Host.Outcome State Fault Refusal :=
  alu1 aluNot A s

/-- SHL (R164). -/
def execShl (A B : Byte) (s : State) : Host.Outcome State Fault Refusal :=
  alu2 aluShl A B s

/-- SHR (R165). -/
def execShr (A B : Byte) (s : State) : Host.Outcome State Fault Refusal :=
  alu2 aluShr A B s

end Sys2Proof.Machine
end

