-- ==== Sys2Proof/Machine/MemAccess.lean ====
section
/-! DEFINITION. ST, LD (47_memory_access.md). -/

namespace Sys2Proof.Machine

/-- ST (R220): register a holds the address, register b the value. -/
def execSt (A B : Byte) (s : State) : Host.Outcome State Fault Refusal :=
  onRegs A B s fun a b => s.memWrite (s.address a) (s.x b).toNat

/-- LD (R221): register b holds the address, read before register a is written. -/
def execLd (A B : Byte) (s : State) : Host.Outcome State Fault Refusal :=
  onRegs A B s fun a b => do
    let v ← s.memRead (s.address b)
    .ok (s.setX a v)

end Sys2Proof.Machine
end

