-- ==== Sys2Proof/Machine/Stack.lean ====
section
/-! DEFINITION. PUSH, POP (45_stack.md). -/

namespace Sys2Proof.Machine

/-- PUSH (R191): x[a] is read after the decrement. -/
def execPush (A : Byte) (s : State) : Host.Outcome State Fault Refusal :=
  onReg A s fun a => s.stackPush fun t => (t.x a).toNat

/-- POP (R192): "read into register[a]" comes before the increment, so POP r7 increments the byte read (decision D11). -/
def execPop (A : Byte) (s : State) : Host.Outcome State Fault Refusal :=
  onReg A s fun a => do
    let v ← s.memRead s.sp.toNat
    let sp' ← spInc (if a = Config.spIndex then v else s.sp)
    .ok ((s.setX a v).setX Config.spIndex sp')

end Sys2Proof.Machine
end

