-- ==== Sys2Proof/Machine/System.lean ====
section
/-! DEFINITION. NOP, HLT, INT, IRET (48_system.md). -/

namespace Sys2Proof.Machine

/-- NOP (R230): the generic advance, which the step has made, is the whole effect. -/
def execNop (s : State) : Host.Outcome State Fault Refusal :=
  .next s

/-- HLT (R232): run <- Halted. -/
def execHlt (s : State) : Host.Outcome State Fault Refusal :=
  .next (s.setRun .halted)

/-- INT (R233): a no-op; A is not checked and no register is read. -/
def execInt (_A : Byte) (s : State) : Host.Outcome State Fault Refusal :=
  .next s

/-- IRET (R234): a no-op; nothing is popped or restored. -/
def execIret (s : State) : Host.Outcome State Fault Refusal :=
  .next s

end Sys2Proof.Machine
end

