-- ==== Sys2Proof/Machine/Dispatch.lean ====
section
/-! DEFINITION. The dispatch: one arm per instruction, one call of its meaning (40_step_cycle.md R116). The state s is the one in which
the instruction's behaviour runs: its pc is already advanced past the instruction (10_state.md R28). -/

namespace Sys2Proof.Machine

/-- Execute(i): the behaviour of an instruction. -/
def exec (i : Instr) (s : State) : Host.Outcome State Fault Refusal :=
  match i with
  | .ldi A B => Sys2Proof.Machine.execLdi A B s
  | .prn A => Sys2Proof.Machine.execPrn A s
  | .pra A => Sys2Proof.Machine.execPra A s
  | .add A B => Sys2Proof.Machine.execAdd A B s
  | .sub A B => Sys2Proof.Machine.execSub A B s
  | .mul A B => Sys2Proof.Machine.execMul A B s
  | .div A B => Sys2Proof.Machine.execDiv A B s
  | .mod A B => Sys2Proof.Machine.execMod A B s
  | .inc A => Sys2Proof.Machine.execInc A s
  | .dec A => Sys2Proof.Machine.execDec A s
  | .and A B => Sys2Proof.Machine.execAnd A B s
  | .or A B => Sys2Proof.Machine.execOr A B s
  | .xor A B => Sys2Proof.Machine.execXor A B s
  | .not A => Sys2Proof.Machine.execNot A s
  | .shl A B => Sys2Proof.Machine.execShl A B s
  | .shr A B => Sys2Proof.Machine.execShr A B s
  | .cmp A B => Sys2Proof.Machine.execCmp A B s
  | .push A => Sys2Proof.Machine.execPush A s
  | .pop A => Sys2Proof.Machine.execPop A s
  | .call A => Sys2Proof.Machine.execCall A s
  | .ret => Sys2Proof.Machine.execRet s
  | .jmp A => Sys2Proof.Machine.execJmp A s
  | .jeq A => Sys2Proof.Machine.execJeq A s
  | .jne A => Sys2Proof.Machine.execJne A s
  | .jgt A => Sys2Proof.Machine.execJgt A s
  | .jlt A => Sys2Proof.Machine.execJlt A s
  | .jge A => Sys2Proof.Machine.execJge A s
  | .jle A => Sys2Proof.Machine.execJle A s
  | .st A B => Sys2Proof.Machine.execSt A B s
  | .ld A B => Sys2Proof.Machine.execLd A B s
  | .nop => Sys2Proof.Machine.execNop s
  | .hlt => Sys2Proof.Machine.execHlt s
  | .int A => Sys2Proof.Machine.execInt A s
  | .iret => Sys2Proof.Machine.execIret s

end Sys2Proof.Machine
end

