-- ==== Sys2Proof/Machine/Cycle.lean ====
section
/-! DEFINITION. The step cycle (40_step_cycle.md R110 to R119): fetch, decode of the count, advance, lookup, operand fetch,
execution. -/

namespace Sys2Proof.Machine

/-- Fetch (R111): the opcode byte at pc. -/
def State.fetchOpcode (s : State) : Except Raised Byte :=
  s.memRead s.pc.toNat

/-- The generic advance (R113): pc <- pc + 1 + n, n from bits 7:6 of the byte, legal or not. It is made only after a
fetch, so pc is at most 255 and 9 bits hold the sum (10_state.md R31). -/
def State.advance (s : State) (op : Byte) : State :=
  s.setPc (s.pc + 1 + BitVec.ofNat 9 (operandCount op))

/-- Lookup (R114), then the operand fetches at the unadvanced addresses pc0 + 1 and pc0 + 2, A before B (R115). An illegal
byte fetches no operand. -/
def State.fetchInstr (s : State) (pc0 : Nat) (op : Byte) : Except Raised Instr :=
  match Opcode.ofByte op with
  | none => .error ⟨.illegalInstruction, some op.toNat⟩
  | some o =>
    match operandCount op with
    | 0 => .ok (o.instr 0 0)
    | 1 => do
      let A ← s.memRead (pc0 + 1)
      .ok (o.instr A 0)
    | _ => do
      let A ← s.memRead (pc0 + 1)
      let B ← s.memRead (pc0 + 2)
      .ok (o.instr A B)

/-- The step of a running machine (R119). OutOfBounds at the opcode fetch leaves pc; every other fault leaves it
advanced (60_exceptions.md R253). -/
def runningStep (s : State) : Host.Outcome State Fault Refusal :=
  match s.fetchOpcode with
  | .error e => .next (s.raise e)
  | .ok op =>
    let t := s.advance op
    match t.fetchInstr s.pc.toNat op with
    | .error e => .next (t.raise e)
    | .ok i => exec i t

/-- One step: a machine that is Halted or Faulted stays as it is (R117, decision D25, log entry 3). -/
def cycle (s : State) : Host.Outcome State Fault Refusal :=
  match s.run with
  | .running => runningStep s
  | .halted | .faulted _ => .next s

/-- The bytes from pc to the top of memory: what the decoder can be given at this state. -/
def State.codeBytes (s : State) : List Byte :=
  s.mem.bytes s.pc.toNat (Config.memSize - s.pc.toNat)

/-- s with the three bytes of a table word where the next step fetches, and running. Where three bytes do not fit below
the top of memory, they go to address 0 and pc with them (log entry 5). -/
def State.placeWord (s : State) (nbits w : Nat) : State :=
  let base : PcWord := if s.pc.toNat + 3 ≤ Config.memSize then s.pc else 0
  ((s.setPc base).setRun .running).setMem (s.mem.writeBytes base.toNat (tableBytes nbits w))

end Sys2Proof.Machine
end

