-- ==== Sys2Proof/Machine/Step.lean ====
section
/-! DEFINITION. The machine's step, and the placing of an instruction where it is fetched. -/

namespace Sys2Proof.Machine

/-- One step of the core (40_step_cycle.md R119). -/
def step (s : State) : Host.Outcome State Fault Refusal :=
  cycle s

/-- s with the instruction of a table word stored where step fetches its next instruction. -/
def State.withFetchWord (s : State) (nbits w : Nat) : State :=
  s.placeWord nbits w

end Sys2Proof.Machine
end

