-- ==== Sys2Proof/Machine/Arbiter.lean ====
section
/-! DEFINITION. The memory arbiter's order (20_memory.md R65, R66): the accesses of one step, in the order the one port serves
them. An access that fails the bound check is served by nobody and is not listed (log entry 10). -/

namespace Sys2Proof.Machine

/-- The three kinds of request (20_memory.md R65). -/
inductive Requester where
  | opcodeFetch
  | operandFetch
  | dataAccess
  deriving DecidableEq, Repr

/-- One access of one byte (20_memory.md R53). -/
structure Access where
  /-- Which part of the core asks. -/
  requester : Requester
  /-- A write, or else a read. -/
  isWrite : Bool
  /-- The address. -/
  addr : Nat
  deriving DecidableEq, Repr

/-- The data access of an instruction, at most one (20_memory.md R66), s holding the registers at the instruction's start.
An instruction that raises before its access makes none; POP reads before it checks (45_stack.md R192). -/
def dataAccess (i : Instr) (s : State) : List Access :=
  match i with
  | .push A | .call A =>
    match reg A with
    | .ok _ => if s.sp = 0 then [] else [⟨.dataAccess, true, s.sp.toNat - 1⟩]
    | .error _ => []
  | .pop A =>
    match reg A with
    | .ok _ => [⟨.dataAccess, false, s.sp.toNat⟩]
    | .error _ => []
  | .ret => if s.sp = 255 then [] else [⟨.dataAccess, false, s.sp.toNat⟩]
  | .st A B =>
    match reg A, reg B with
    | .ok a, .ok _ => [⟨.dataAccess, true, s.address a⟩]
    | _, _ => []
  | .ld A B =>
    match reg A, reg B with
    | .ok _, .ok b => [⟨.dataAccess, false, s.address b⟩]
    | _, _ => []
  | .ldi _ _ | .prn _ | .pra _ | .add _ _ | .sub _ _ | .mul _ _ | .div _ _ | .mod _ _ | .inc _ | .dec _ | .and _ _
  | .or _ _ | .xor _ _ | .not _ | .shl _ _ | .shr _ _ | .cmp _ _ | .jmp _ | .jeq _ | .jne _ | .jgt _ | .jlt _ | .jge _
  | .jle _ | .nop | .hlt | .int _ | .iret => []

/-- The operand fetches of a first byte at pc0, A before B; none for an illegal byte (20_memory.md R66). -/
def operandAccesses (pc0 : Nat) (op : Byte) : List Access :=
  match Opcode.ofByte op with
  | none => []
  | some _ =>
    ((List.range (operandCount op)).filter fun k => decide (pc0 + 1 + k < Config.memSize)).map
      fun k => ⟨.operandFetch, false, pc0 + 1 + k⟩

/-- The accesses of the step from s (20_memory.md R66). -/
def State.accesses (s : State) : List Access :=
  match s.run, s.fetchOpcode with
  | .running, .ok op =>
    let data :=
      match s.fetchInstr s.pc.toNat op with
      | .ok i => dataAccess i s
      | .error _ => []
    ⟨.opcodeFetch, false, s.pc.toNat⟩ :: (operandAccesses s.pc.toNat op ++ data)
  | _, _ => []

end Sys2Proof.Machine
end

