-- ==== Sys2Proof/Machine/HostPort.lean ====
section
/-! DEFINITION. The host's side of the core: load, run, status, snapshot, what the host may do and when
(70_reset_and_hazards.md R270 to R283), and the text of an event (R282). -/

namespace Sys2Proof.Machine

/-- The load (R277, R278): the program is copied to memory from address 0 up and nothing else changes; a program longer
than 256 bytes reports OutOfBounds and writes nothing (decision D18). -/
def State.load (s : State) (program : List Byte) : Except Raised State :=
  if program.length ≤ Config.memSize then .ok (s.setMem (s.mem.writeBytes Config.loadBase program))
  else .error ⟨.outOfBounds, some Config.memSize⟩

/-- Reset, then load (R276): the machine before its first step. -/
def boot (memInit : Memory) (program : List Byte) : Except Raised State :=
  (State.resetWith memInit).load program

/-- The state a step leaves. Every step answers a next state; the other outcomes are read as no change. -/
def State.afterStep (s : State) : State :=
  match step s with
  | .next t => t
  | .fault _ | .refused _ => s

/-- run() (40_step_cycle.md R118) with the host's STEP_LIMIT (R283): steps while the run state is Running, at most
limit of them. -/
def State.runSteps : Nat → State → State
  | 0, s => s
  | limit + 1, s => if s.run = .running then State.runSteps limit s.afterStep else s

/-- Where the host stands (R280): which of its acts are allowed next. -/
inductive HostPhase where
  /-- After a reset, before the load. -/
  | fresh
  /-- After the load. -/
  | loaded
  /-- After a load that failed: "the host must not then run" the machine (R278). -/
  | spoiled
  deriving DecidableEq, Repr

/-- The machine and where its host stands. -/
structure Session where
  /-- The core. -/
  core : State
  /-- The host's place in the order of R276. -/
  phase : HostPhase
  deriving DecidableEq, Repr

/-- What the host can do (R280); it can do nothing else. -/
inductive HostAct where
  | reset
  | load (program : List Byte)
  | step
  | run (limit : Nat)
  | snapshot
  deriving DecidableEq, Repr

/-- What the host gets (R280). -/
inductive HostReply where
  /-- Nothing. -/
  | done
  /-- The error K of a load or of a run. -/
  | error (k : Fault)
  /-- StepOutcome: the run state after the step (60_exceptions.md R260, decision D25). -/
  | status (r : RunState)
  /-- FinalState, or a snapshot: the whole state (60_exceptions.md R259, R260). -/
  | state (s : State)
  /-- The host's own step limit ended the run: the machine is still Running (R283). -/
  | cutOff
  deriving DecidableEq, Repr

/-- What run() reports (40_step_cycle.md R118). -/
def runReply (s : State) : HostReply :=
  match s.run with
  | .running => .cutOff
  | .halted => .state s
  | .faulted k => .error k

/-- One act of the host (R280). The answer none means that the act breaks the host's duty and is no move of the model:
a second load, a load before a reset, a step or run before the load or after a load that failed (R278). -/
def hostAct (memInit : Memory) (v : Session) : HostAct → Option (Session × HostReply)
  | .reset => some (⟨State.resetWith memInit, .fresh⟩, .done)
  | .load program =>
    match v.phase with
    | .fresh =>
      match v.core.load program with
      | .ok t => some (⟨t, .loaded⟩, .done)
      | .error e => some (⟨v.core, .spoiled⟩, .error e.kind)
    | .loaded | .spoiled => none
  | .step =>
    match v.phase with
    | .loaded => some (⟨v.core.afterStep, .loaded⟩, .status v.core.afterStep.run)
    | .fresh | .spoiled => none
  | .run limit =>
    match v.phase with
    | .loaded => some (⟨v.core.runSteps limit, .loaded⟩, runReply (v.core.runSteps limit))
    | .fresh | .spoiled => none
  | .snapshot => some (v, .state v.core)

/-- The status output: the run state and the fault code (R281, 60_exceptions.md R241). -/
def State.statusPort (s : State) : RunState × Nat :=
  (s.run, s.run.code)

/-- The text of an event (41 R131, R132; 70 R282): for NUM the decimal numeral without sign and leading zeros; for CHR up to
127 the ASCII character; above 127 the spec says nothing and leaves it to the sink (log entry 11). -/
def Event.text : Event → Option String
  | .num v => some (toString v.toNat)
  | .chr v => if v.toNat < 128 then some (String.singleton (Char.ofNat v.toNat)) else none

end Sys2Proof.Machine
end

