-- ==== Sys2Proof/Machine/Listing.lean ====
section
/-! DEFINITION. The assembly spelling of an instruction (30_encoding.md R96, R99). Notation only: no rule of the core reads it. -/

namespace Sys2Proof

/-- The mnemonics as the source spells them (30_encoding.md R99). -/
def Opcode.mnemonic : Opcode → String
  | .ldi => "LDI" | .prn => "PRN" | .pra => "PRA"
  | .add => "ADD" | .sub => "SUB" | .mul => "MUL" | .div => "DIV" | .mod => "MOD"
  | .inc => "INC" | .dec => "DEC"
  | .and => "AND" | .or => "OR" | .xor => "XOR" | .not => "NOT" | .shl => "SHL" | .shr => "SHR"
  | .cmp => "CMP"
  | .push => "PUSH" | .pop => "POP"
  | .call => "CALL" | .ret => "RET" | .jmp => "JMP"
  | .jeq => "JEQ" | .jne => "JNE" | .jgt => "JGT" | .jlt => "JLT" | .jge => "JGE" | .jle => "JLE"
  | .st => "ST" | .ld => "LD"
  | .nop => "NOP" | .hlt => "HLT" | .int => "INT" | .iret => "IRET"

/-- The spelling r0 to r7 of a register operand; a byte above 7 has none. -/
def regName (o : Byte) : Option String :=
  if o.toNat < 8 then some ("r" ++ toString o.toNat) else none

/-- An instruction as a line of assembly, the first operand written being the byte B1 (30_encoding.md R96). An operand byte that names
no register has no spelling. -/
def Instr.asm (i : Instr) : Option String :=
  match i.opcode.format, i.operandBytes with
  | .f1, [A] => (regName A).map fun a => i.opcode.mnemonic ++ " " ++ a
  | .f2r, [A, B] => (regName A).bind fun a => (regName B).map fun b => i.opcode.mnemonic ++ " " ++ a ++ ", " ++ b
  | .f2i, [A, B] => (regName A).map fun a => i.opcode.mnemonic ++ " " ++ a ++ ", " ++ toString B.toNat
  | _, _ => some i.opcode.mnemonic

end Sys2Proof
end

