-- ==== Sys2Proof/Safety.lean ====
section
/-! DEFINITION. The terms of the claims: how a run ends, the invariant of the machine, what stays unchanged, and the rules that
instructions of one shape share. -/

namespace Sys2Proof

open Machine

/-! ### How a run ends -/

/-- A run has ended (40_step_cycle.md R121). -/
abbrev Ended (s : State) : Prop :=
  s.run ≠ .running

/-- The good end: the program executed HLT (40_step_cycle.md R121, 60_exceptions.md R255). -/
abbrev EndedWell (s : State) : Prop :=
  s.run = .halted

/-- The machine has faulted: the run is refuted (60_exceptions.md R255). -/
def HasFaulted (s : State) : Prop :=
  ∃ k, s.run = .faulted k

/-- A safe state: it has not faulted. -/
def Safe (s : State) : Prop :=
  ¬ HasFaulted s

/-! ### The invariant -/

/-- The four values fl ever holds (10_state.md R32). -/
abbrev LegalFlags (fl : Byte) : Prop :=
  fl = 0 ∨ fl = 1 ∨ fl = 2 ∨ fl = 4

/-- The legal values of the state (10_state.md R41): pc 0 to 259, fl 0, 1, 2 or 4, and the memory list canonical. -/
abbrev Inv (s : State) : Prop :=
  s.mem.wf ∧ s.pc.toNat ≤ 259 ∧ LegalFlags s.fl

/-! ### What is unchanged from s to t -/

/-- Every register but those listed. -/
def SameRegsBut (l : List RegIdx) (s t : State) : Prop :=
  ∀ r : RegIdx, r ∉ l → t.x r = s.x r

/-- Every byte of memory. -/
def SameMem (s t : State) : Prop :=
  ∀ a : Nat, t.mem.read a = s.mem.read a

/-- Every byte of memory but the one at an address. -/
def SameMemBut (c : Nat) (s t : State) : Prop :=
  ∀ a : Nat, a ≠ c → t.mem.read a = s.mem.read a

/-! ### Where instructions stand and where they fault -/

/-- The operand byte A names register a: the whole byte is the index (30_encoding.md R85). -/
abbrev Names (A : Byte) (a : RegIdx) : Prop :=
  A.toNat = a.val

/-- The bytes bs stand in memory from the pc on, inside the 256 cells. -/
abbrev CodeAt (s : State) (bs : List Byte) : Prop :=
  s.pc.toNat + bs.length ≤ 256 ∧ ∀ k (h : k < bs.length), s.mem.read (s.pc.toNat + k) = bs[k]

/-- The outcome in which exactly the fault k is taken: the run state becomes Faulted(k), everything else stays
(60_exceptions.md R252). -/
def Takes (k : Fault) (s : State) (o : Host.Outcome State Fault Refusal) : Prop :=
  o = .next { s with run := .faulted k }

/-- The bytes of an instruction and its generic advance: i is encoded as bs, and where bs stand from pc on, the step of a running
machine is exec of i with pc advanced past them (10_state.md R28, R29). -/
def EncodedAs (i : Instr) (bs : List Byte) : Prop :=
  encode i = bs ∧
    ∀ s : State, s.run = .running → CodeAt s bs → step s = exec i { s with pc := BitVec.ofNat 9 (s.pc.toNat + bs.length) }

/-! ### Instructions of one shape -/

/-- An instruction of format F2R with opcode byte op that replaces register a by a byte that R relates to the values of the
registers a and b, and changes nothing else; an operand byte above 7 raises InvalidRegister. -/
def TwoRegRule (op : Byte) (mk : Byte → Byte → Instr) (R : Byte → Byte → Byte → Prop) : Prop :=
  ∀ (A B : Byte) (s : State),
    EncodedAs (mk A B) [op, A, B] ∧
    (∀ a b : RegIdx, Names A a → Names B b →
      ∃ t, exec (mk A B) s = .next t ∧ R (s.x a) (s.x b) (t.x a) ∧ SameRegsBut [a] s t ∧ SameMem s t ∧
        t.pc = s.pc ∧ t.fl = s.fl ∧ t.run = s.run ∧ t.events = s.events) ∧
    (7 < A.toNat ∨ 7 < B.toNat → Takes .invalidRegister s (exec (mk A B) s))

/-- As TwoRegRule, and with 0 in the divisor register b the instruction raises DivisionByZero. -/
def DivideRule (op : Byte) (mk : Byte → Byte → Instr) (R : Byte → Byte → Byte → Prop) : Prop :=
  ∀ (A B : Byte) (s : State),
    EncodedAs (mk A B) [op, A, B] ∧
    (∀ a b : RegIdx, Names A a → Names B b → s.x b ≠ 0 →
      ∃ t, exec (mk A B) s = .next t ∧ R (s.x a) (s.x b) (t.x a) ∧ SameRegsBut [a] s t ∧ SameMem s t ∧
        t.pc = s.pc ∧ t.fl = s.fl ∧ t.run = s.run ∧ t.events = s.events) ∧
    (∀ a b : RegIdx, Names A a → Names B b → s.x b = 0 → Takes .divisionByZero s (exec (mk A B) s)) ∧
    (7 < A.toNat ∨ 7 < B.toNat → Takes .invalidRegister s (exec (mk A B) s))

/-- An instruction of format F1 with opcode byte op that replaces register a by a byte that R relates to its value, and
changes nothing else; an operand byte above 7 raises InvalidRegister. -/
def OneRegRule (op : Byte) (mk : Byte → Instr) (R : Byte → Byte → Prop) : Prop :=
  ∀ (A : Byte) (s : State),
    EncodedAs (mk A) [op, A] ∧
    (∀ a : RegIdx, Names A a →
      ∃ t, exec (mk A) s = .next t ∧ R (s.x a) (t.x a) ∧ SameRegsBut [a] s t ∧ SameMem s t ∧
        t.pc = s.pc ∧ t.fl = s.fl ∧ t.run = s.run ∧ t.events = s.events) ∧
    (7 < A.toNat → Takes .invalidRegister s (exec (mk A) s))

/-- An output instruction of format F1: one event is appended and nothing else changes; an operand byte above 7 raises
InvalidRegister and emits nothing. -/
def OutputRule (op : Byte) (mk : Byte → Instr) (event : Byte → Event) : Prop :=
  ∀ (A : Byte) (s : State),
    EncodedAs (mk A) [op, A] ∧
    (∀ a : RegIdx, Names A a →
      ∃ t, exec (mk A) s = .next t ∧ t.events = s.events ++ [event (s.x a)] ∧ SameRegsBut [] s t ∧ SameMem s t ∧
        t.pc = s.pc ∧ t.fl = s.fl ∧ t.run = s.run) ∧
    (7 < A.toNat → Takes .invalidRegister s (exec (mk A) s))

/-- A conditional jump: if its condition on fl holds, pc becomes the value of register a and nothing else changes; if not,
nothing changes; an operand byte above 7 raises InvalidRegister, taken or not (46_control_transfer.md R203). -/
def CondJumpRule (op : Byte) (mk : Byte → Instr) (taken : Byte → Prop) : Prop :=
  ∀ (A : Byte) (s : State),
    EncodedAs (mk A) [op, A] ∧
    (∀ a : RegIdx, Names A a → taken s.fl →
      ∃ t, exec (mk A) s = .next t ∧ t.pc.toNat = (s.x a).toNat ∧ SameRegsBut [] s t ∧ SameMem s t ∧ t.fl = s.fl ∧
        t.run = s.run ∧ t.events = s.events) ∧
    (∀ a : RegIdx, Names A a → ¬ taken s.fl → exec (mk A) s = .next s) ∧
    (7 < A.toNat → Takes .invalidRegister s (exec (mk A) s))

/-- An instruction that does nothing beyond the advance the step has made. -/
def NoEffect (i : Instr) : Prop :=
  ∀ s : State, exec i s = .next s

end Sys2Proof
end

