-- ==== Sys2Proof/Certificates/Slice0/Obligations.lean ====
section
/-! DEFINITION. The statements for the provers. In every statement about exec, the pc of s is already advanced past the
instruction, so that a pc left as it is means the generic advance only (10_state.md R28, R29); EncodedAs says of each instruction
what that advance is, and StepInFull and StepRunsDecodedInstruction tie exec to step. -/

open Sys2Proof Sys2Proof.Machine

/-! ### Reset, step, faults -/

/-- 10_state.md R25: the registers after reset; with it the other reset values of 70_reset_and_hazards.md R270, for every MEM_INIT. -/
def Obligations.ResetState : Prop :=
  ∀ memInit : Memory,
    (∀ r : RegIdx, r ≠ 7 → (State.resetWith memInit).x r = 0) ∧ (State.resetWith memInit).x 7 = 0xF4 ∧
    (State.resetWith memInit).pc = 0 ∧ (State.resetWith memInit).fl = 0 ∧ (State.resetWith memInit).run = .running ∧
    (State.resetWith memInit).mem = memInit ∧ (State.resetWith memInit).events = []

/-- Every reset state, and State.reset, meets the invariant (10_state.md R41), and so does the machine after the load (70 R277). That the
memory list is canonical is the model's own clause (log entry 1). -/
def Obligations.ResetMeetsInvariant : Prop :=
  Inv State.reset ∧ (∀ memInit : Memory, memInit.wf → Inv (State.resetWith memInit)) ∧
  ∀ (memInit : Memory) (program : List Byte) (t : State), memInit.wf → boot memInit program = .ok t → Inv t

/-- 10_state.md R31, R32: pc stays in 0 to 259 and fl in 0, 1, 2, 4, whatever step is taken; and the memory list stays canonical
(the list form is the model's own, log entry 1). -/
def Obligations.StepKeepsInvariant : Prop :=
  ∀ s t : State, Inv s → step s = .next t → Inv t

/-- 40_step_cycle.md R119, the step in full: terminal states, the opcode fetch, the advance, the lookup, the two operand fetches, the
execution. -/
def Obligations.StepInFull : Prop :=
  ∀ s : State,
    (s.run ≠ .running → step s = .next s) ∧
    (s.run = .running → 255 < s.pc.toNat → Takes .outOfBounds s (step s)) ∧
    (s.run = .running → s.pc.toNat ≤ 255 → ∀ (op : Byte) (n : Nat) (t : State),
      op = s.mem.read s.pc.toNat → n = op.toNat / 64 → t = { s with pc := BitVec.ofNat 9 (s.pc.toNat + 1 + n) } →
      ((∀ o : Opcode, o.byte ≠ op) → Takes .illegalInstruction t (step s)) ∧
      (∀ o : Opcode, o.byte = op →
        (1 ≤ n → 255 < s.pc.toNat + 1 → Takes .outOfBounds t (step s)) ∧
        (n = 2 → 255 < s.pc.toNat + 2 → Takes .outOfBounds t (step s)) ∧
        (s.pc.toNat + n ≤ 255 →
          step s = exec (o.instr (s.mem.read (s.pc.toNat + 1)) (s.mem.read (s.pc.toNat + 2))) t)))

/-- When the bytes from pc on decode to i, the step is exec of i after the advance by i's length, which does not wrap
(40_step_cycle.md R113, R115, R116). -/
def Obligations.StepRunsDecodedInstruction : Prop :=
  ∀ (s : State) (i : Instr) (rest : List Byte),
    s.run = .running → decode s.codeBytes = .ok (i, rest) →
      step s = exec i { s with pc := s.pc + BitVec.ofNat 9 i.length } ∧
      (s.pc + BitVec.ofNat 9 i.length).toNat = s.pc.toNat + i.length

/-- 40_step_cycle.md R117: a step in a state other than Running does nothing, and what the host is told is the unchanged run state. -/
def Obligations.TerminalStatesTakeNoStep : Prop :=
  ∀ s : State, Ended s → step s = .next s ∧ s.afterStep = s

/-- 30_encoding.md R91: the bytes that are none of the 34 values are 222, all of 0xC0 to 0xFF among them; fetching one raises
IllegalInstruction with pc advanced by 1 + bits 7:6, nothing else changed and no operand byte read. -/
def Obligations.IllegalOpcodeFaults : Prop :=
  ∃ legal : List Byte,
    legal = [0x00, 0x01, 0x11, 0x13, 0x45, 0x46, 0x47, 0x48, 0x50, 0x52, 0x54, 0x55, 0x56, 0x57, 0x58, 0x59, 0x5A, 0x65, 0x66,
      0x69, 0x82, 0x83, 0x84, 0xA0, 0xA1, 0xA2, 0xA3, 0xA4, 0xA7, 0xA8, 0xAA, 0xAB, 0xAC, 0xAD] ∧
    ((List.range 256).filter fun n => decide (BitVec.ofNat 8 n ∉ legal)).length = 222 ∧
    (∀ b : Byte, 0xC0 ≤ b.toNat → b ∉ legal) ∧
    (∀ b : Byte, Opcode.ofByte b = none ↔ b ∉ legal) ∧
    ∀ s : State, s.run = .running → s.pc.toNat ≤ 255 → s.mem.read s.pc.toNat ∉ legal →
      ∃ t, step s = .next t ∧ t.run = .faulted .illegalInstruction ∧
        t.pc.toNat = s.pc.toNat + 1 + (s.mem.read s.pc.toNat).toNat / 64 ∧
        SameRegsBut [] s t ∧ SameMem s t ∧ t.fl = s.fl ∧ t.events = s.events ∧
        s.accesses = [⟨.opcodeFetch, false, s.pc.toNat⟩]

/-- 60_exceptions.md R253: the state a fault leaves. -/
def Obligations.FaultsLeaveStateButPc : Prop :=
  ∀ s t : State, s.run = .running → step s = .next t → HasFaulted t →
    SameRegsBut [] s t ∧ t.fl = s.fl ∧ SameMem s t ∧ t.events = s.events ∧
    (255 < s.pc.toNat → t.run = .faulted .outOfBounds ∧ t.pc = s.pc) ∧
    (s.pc.toNat ≤ 255 → t.pc.toNat = s.pc.toNat + 1 + (s.mem.read s.pc.toNat).toNat / 64)

/-- 60_exceptions.md R243: an instruction raises InvalidRegister exactly where a register operand byte of it is above 7, whatever
else could fault; INT's operand and LDI's immediate are no register operands. -/
def Obligations.InvalidRegisterExactlyOnBadOperand : Prop :=
  ∀ (i : Instr) (s : State), s.run ≠ .faulted .invalidRegister →
    ((∃ o ∈ i.regOperands, 7 < o.toNat) ↔ Takes .invalidRegister s (exec i s))

/-- 40_step_cycle.md R120: every step has its one next state, and every instruction executes; the model refuses nothing. -/
def Obligations.StepIsTotal : Prop :=
  (∀ s : State, ∃ t, step s = .next t) ∧ ∀ (i : Instr) (s : State), ∃ t, exec i s = .next t

/-- A step that does not fault leaves pc at most 256, so 257 to 259 are left by faults only. 10_state.md R31 gives 0 to 259; the sharper
bound follows with the advance of 40_step_cycle.md R113, the operand fetches of R115, which fault above 255, and 30_encoding.md R91, by
which a count of 3 is always illegal. -/
def Obligations.PcAtMost256UnlessFaulted : Prop :=
  ∀ s t : State, s.run = .running → step s = .next t → Safe t → t.pc.toNat ≤ 256

/-- 10_state.md R33: CMP and nothing else writes fl. -/
def Obligations.FlagsWrittenOnlyByCompare : Prop :=
  (∀ (i : Instr) (s t : State), exec i s = .next t → t.fl ≠ s.fl → ∃ A B, i = .cmp A B) ∧
  (∀ s t : State, step s = .next t → t.fl ≠ s.fl → s.pc.toNat ≤ 255 ∧ s.mem.read s.pc.toNat = 0xA7)

/-- 10_state.md R34: the six conditional jumps and nothing else read fl. Another fl changes nothing but fl in what an instruction
does, except the pc after a conditional jump. -/
def Obligations.FlagsReadOnlyByConditionalJumps : Prop :=
  ∀ (i : Instr) (s t : State) (fl : Byte), exec i s = .next t →
    ∃ u, exec i { s with fl := fl } = .next u ∧ SameRegsBut [] t u ∧ SameMem t u ∧ u.run = t.run ∧
      u.events = t.events ∧
      ((∀ A, i ≠ .jeq A ∧ i ≠ .jne A ∧ i ≠ .jgt A ∧ i ≠ .jlt A ∧ i ≠ .jge A ∧ i ≠ .jle A) → u.pc = t.pc) ∧
      ((∃ A B, i = .cmp A B) ∧ u.fl = t.fl ∨ u.fl = fl)

/-- 10_state.md R38: Running goes to Halted by HLT only, and by it always; a faulted or halted machine stays what it is. -/
def Obligations.HaltedOnlyByHalt : Prop :=
  ∀ s t : State, step s = .next t →
    (s.run = .running → (t.run = .halted ↔ s.pc.toNat ≤ 255 ∧ s.mem.read s.pc.toNat = 0x01)) ∧
    (s.run ≠ .running → t.run = s.run)

/-- 70_reset_and_hazards.md R282, 10_state.md R40: a step delivers at most one event, after all earlier ones, and only for PRN and
PRA. -/
def Obligations.EventsOnlyByOutput : Prop :=
  ∀ s t : State, step s = .next t →
    t.events = s.events ∨
      ∃ v, (s.mem.read s.pc.toNat = 0x47 ∧ t.events = s.events ++ [.num v]) ∨
        (s.mem.read s.pc.toNat = 0x48 ∧ t.events = s.events ++ [.chr v])

/-- 10_state.md R26, the writes: an instruction changes no register that its row of R26 does not say it writes. -/
def Obligations.RegistersWritten : Prop :=
  ∀ (i : Instr) (s t : State) (r : RegIdx), exec i s = .next t → (∀ o ∈ i.regsWritten, o.toNat ≠ r.val) → t.x r = s.x r

/-- 10_state.md R26, the reads: the value of a register that its row of R26 does not say an instruction reads has no influence on
what the instruction does; a conditional jump that is not taken reads none. -/
def Obligations.RegistersRead : Prop :=
  ∀ (i : Instr) (s t : State) (r : RegIdx) (v : Byte), exec i s = .next t →
    ((∀ o ∈ i.regsRead, o.toNat ≠ r.val) ∨
      (∃ A, (i = .jeq A ∧ s.fl.getLsbD 0 = false) ∨ (i = .jne A ∧ s.fl.getLsbD 0 = true) ∨
        (i = .jgt A ∧ s.fl.getLsbD 1 = false) ∨ (i = .jlt A ∧ s.fl.getLsbD 2 = false) ∨
        (i = .jge A ∧ s.fl.getLsbD 1 = false ∧ s.fl.getLsbD 0 = false) ∨
        (i = .jle A ∧ s.fl.getLsbD 2 = false ∧ s.fl.getLsbD 0 = false))) →
    ∃ u, exec i (s.setX r v) = .next u ∧ SameRegsBut [r] t u ∧ SameMem t u ∧ u.pc = t.pc ∧ u.fl = t.fl ∧
      u.run = t.run ∧ u.events = t.events ∧ (u.x r = t.x r ∨ u.x r = v ∧ t.x r = s.x r)

/-! ### The memory arbiter -/

/-- 20_memory.md R66, the writes: a step changes no cell but the one that the arbiter's write of this step names. -/
def Obligations.MemoryWrittenOnlyByArbiterWrite : Prop :=
  ∀ (s t : State) (a : Nat), step s = .next t → (∀ acc ∈ s.accesses, acc.isWrite = true → acc.addr ≠ a) →
    t.mem.read a = s.mem.read a

/-- 20_memory.md R66, the reads: what a step does depends on no cell but those the arbiter reads in it. With any other memory that
agrees on those cells, the step leaves the same registers, pc, fl, run state and events, and stores the same bytes. -/
def Obligations.StepDependsOnlyOnArbiterReads : Prop :=
  ∀ (s t : State) (m : Memory), step s = .next t →
    (∀ acc ∈ s.accesses, acc.isWrite = false → m.read acc.addr = s.mem.read acc.addr) →
    ∃ u, step { s with mem := m } = .next u ∧ SameRegsBut [] t u ∧ u.pc = t.pc ∧ u.fl = t.fl ∧ u.run = t.run ∧
      u.events = t.events ∧ State.accesses { s with mem := m } = s.accesses ∧
      ∀ acc ∈ s.accesses, acc.isWrite = true → u.mem.read acc.addr = t.mem.read acc.addr

/-- 20_memory.md R66: the first access of a step is the opcode fetch, the operand fetches follow at ascending addresses, and at most one
data access comes last. That every listed access lies in the 256 cells, and that a step with pc above 255 lists none, is the model's
choice (log entry 10): a request that fails the bound check, which 20_memory.md R67 calls an access outside 0 to 255, is not listed. -/
def Obligations.AccessesFollowTheFixedOrder : Prop :=
  ∀ s : State,
    (∀ acc ∈ s.accesses, acc.addr < 256) ∧
    (s.accesses = [] ∨ ∃ (k : Nat) (data : List Access), k ≤ 2 ∧ data.length ≤ 1 ∧
      (∀ acc ∈ data, acc.requester = .dataAccess) ∧
      s.accesses = ⟨.opcodeFetch, false, s.pc.toNat⟩ ::
        ((List.range k).map (fun j => ⟨.operandFetch, false, s.pc.toNat + 1 + j⟩) ++ data))

/-! ### Encoding -/

/-- Decoding an encoded instruction gives it back, whatever its operand bytes and whatever follows it (30_encoding.md R80, R83,
R84). -/
def Obligations.DecodeOfEncode : Prop :=
  ∀ (i : Instr) (rest : List Byte), decode (encode i ++ rest) = .ok (i, rest)

/-- What the decoder accepts is the encoding of what it answers, so no two byte strings decode to one instruction
(30_encoding.md R83, R97). -/
def Obligations.EncodeOfDecode : Prop :=
  ∀ (bs rest : List Byte) (i : Instr), decode bs = .ok (i, rest) → bs = encode i ++ rest

/-- Words written out from 30_encoding.md R88 decode to the instructions they stand for, one or more of each family. -/
def Obligations.DecodedWords : Prop :=
  decode [0b10000010, 0x00, 0x08] = .ok (.ldi 0 8, []) ∧
  decode [0b01000111, 0x02] = .ok (.prn 2, []) ∧
  decode [0b10100100, 0x00, 0x01] = .ok (.mod 0 1, []) ∧
  decode [0b10101101, 0x03, 0x04] = .ok (.shr 3 4, []) ∧
  decode [0b10100111, 0x05, 0x06] = .ok (.cmp 5 6, []) ∧
  decode [0b01000110, 0x07] = .ok (.pop 7, []) ∧
  decode [0b01011001, 0x02, 0x01] = .ok (.jle 2, [0x01]) ∧
  decode [0b10000100, 0x04, 0x00] = .ok (.st 4 0, []) ∧
  decode [0b00000001] = .ok (.hlt, []) ∧
  decode [0b01010010, 0xFF] = .ok (.int 0xFF, [])

/-- 30_encoding.md R90: the 34 opcode bytes are pairwise distinct, bits 7:6 of each are its number of operand bytes and never 3, and the
low six bits are pairwise distinct as well; so matching the whole byte is matching the low six bits and checking the count. -/
def Obligations.OpcodeMapIsSound : Prop :=
  (∀ o p : Opcode, o.byte = p.byte → o = p) ∧
  (∀ o : Opcode, o.byte.toNat / 64 = o.format.operands ∧ o.byte.toNat / 64 ≠ 3) ∧
  (∀ o p : Opcode, o.byte.toNat % 64 = p.byte.toNat % 64 → o = p) ∧
  (∀ (o : Opcode) (b : Byte),
    o.byte = b ↔ o.byte.toNat % 64 = b.toNat % 64 ∧ b.toNat / 64 = o.format.operands) ∧
  (∀ i : Instr, i.length = 1 + i.opcode.byte.toNat / 64)

/-! ### Load immediate and output -/

/-- 41 R130, LDI. -/
def Obligations.LdiLoadsImmediate : Prop :=
  ∀ (A B : Byte) (s : State),
    EncodedAs (.ldi A B) [0x82, A, B] ∧
    (∀ a : RegIdx, Names A a →
      ∃ t, exec (.ldi A B) s = .next t ∧ t.x a = B ∧ SameRegsBut [a] s t ∧ SameMem s t ∧ t.pc = s.pc ∧ t.fl = s.fl ∧
        t.run = s.run ∧ t.events = s.events) ∧
    (7 < A.toNat → Takes .invalidRegister s (exec (.ldi A B) s))

/-- 41 R131, PRN. The event carries the number; its text is the decimal numeral. -/
def Obligations.PrnEmitsNumber : Prop :=
  OutputRule 0x47 .prn .num ∧ ∀ v : Byte, (Event.num v).text = some (toString v.toNat)

/-- 41 R132, PRA. The event carries the code, whatever it is; up to 127 its text is that ASCII character. -/
def Obligations.PraEmitsCharacter : Prop :=
  OutputRule 0x48 .pra .chr ∧ ∀ v : Byte, v.toNat ≤ 127 → (Event.chr v).text = some (String.singleton (Char.ofNat v.toNat))

/-! ### ALU -/

/-- 42 R144, ADD. -/
def Obligations.AddWrapsModulo256 : Prop :=
  TwoRegRule 0xA0 .add fun p q r => r.toNat = (p.toNat + q.toNat) % 256

/-- 42 R145, SUB: the difference of the integers modulo 256. -/
def Obligations.SubWrapsModulo256 : Prop :=
  TwoRegRule 0xA1 .sub fun p q r => (r.toNat : Int) = ((p.toNat : Int) - q.toNat) % 256

/-- 42 R146, MUL. -/
def Obligations.MulKeepsLowByte : Prop :=
  TwoRegRule 0xA2 .mul fun p q r => r.toNat = (p.toNat * q.toNat) % 256

/-- 42 R147, DIV. -/
def Obligations.DivIsFloorOrDivisionByZero : Prop :=
  DivideRule 0xA3 .div fun p q r => r.toNat = p.toNat / q.toNat

/-- 42 R148, MOD. -/
def Obligations.ModIsRemainderOrDivisionByZero : Prop :=
  DivideRule 0xA4 .mod fun p q r => r.toNat = p.toNat % q.toNat ∧ r.toNat < q.toNat

/-- 42 R149, INC. -/
def Obligations.IncWrapsModulo256 : Prop :=
  OneRegRule 0x65 .inc fun p r => r.toNat = (p.toNat + 1) % 256

/-- 42 R150, DEC. -/
def Obligations.DecWrapsModulo256 : Prop :=
  OneRegRule 0x66 .dec fun p r => (r.toNat : Int) = ((p.toNat : Int) - 1) % 256

/-- 43 R160, AND, bit by bit. -/
def Obligations.AndIsBitwise : Prop :=
  TwoRegRule 0xA8 .and fun p q r => ∀ k, r.getLsbD k = true ↔ p.getLsbD k = true ∧ q.getLsbD k = true

/-- 43 R161, OR, bit by bit. -/
def Obligations.OrIsBitwise : Prop :=
  TwoRegRule 0xAA .or fun p q r => ∀ k, r.getLsbD k = true ↔ p.getLsbD k = true ∨ q.getLsbD k = true

/-- 43 R162, XOR, bit by bit. -/
def Obligations.XorIsBitwise : Prop :=
  TwoRegRule 0xAB .xor fun p q r => ∀ k, r.getLsbD k = true ↔ p.getLsbD k ≠ q.getLsbD k

/-- 43 R163, NOT: 255 - x, every one of the 8 bits inverted, equal to the exclusive or with 0xFF. -/
def Obligations.NotIsEightBitComplement : Prop :=
  OneRegRule 0x69 .not fun p r => r.toNat = 255 - p.toNat ∧ r = p ^^^ 0xFF ∧ ∀ k < 8, r.getLsbD k = !p.getLsbD k

/-- 43 R164, SHL. -/
def Obligations.ShlMultipliesByPowerOfTwo : Prop :=
  TwoRegRule 0xAC .shl fun p q r => r.toNat = (p.toNat * 2 ^ q.toNat) % 256

/-- 43 R165, SHR. -/
def Obligations.ShrDividesByPowerOfTwo : Prop :=
  TwoRegRule 0xAD .shr fun p q r => r.toNat = p.toNat / 2 ^ q.toNat

/-- 43 R166, the law of the shifts: zeros enter, the amount is used in full, 8 or more gives 0 and 0 gives the operand. -/
def Obligations.ShiftsAreLogicalAndUnmasked : Prop :=
  (TwoRegRule 0xAC .shl fun p q r =>
    (∀ k < 8, r.getLsbD k = (decide (q.toNat ≤ k) && p.getLsbD (k - q.toNat))) ∧
    r.toNat = (p.toNat * 2 ^ q.toNat) % 256 ∧ (8 ≤ q.toNat → r = 0) ∧ (q = 0 → r = p)) ∧
  (TwoRegRule 0xAD .shr fun p q r =>
    (∀ k < 8, r.getLsbD k = p.getLsbD (k + q.toNat)) ∧ r.toNat = p.toNat / 2 ^ q.toNat ∧ (8 ≤ q.toNat → r = 0) ∧ (q = 0 → r = p))

/-! ### Compare -/

/-- 44 R180, CMP: fl is written whole, from an unsigned comparison of register a with register b. -/
def Obligations.CmpSetsExactlyOneFlag : Prop :=
  ∀ (A B : Byte) (s : State),
    EncodedAs (.cmp A B) [0xA7, A, B] ∧
    (∀ a b : RegIdx, Names A a → Names B b →
      ∃ t, exec (.cmp A B) s = .next t ∧
        ((s.x a).toNat = (s.x b).toNat → t.fl = 0b00000001) ∧ ((s.x a).toNat > (s.x b).toNat → t.fl = 0b00000010) ∧
        ((s.x a).toNat < (s.x b).toNat → t.fl = 0b00000100) ∧
        SameRegsBut [] s t ∧ SameMem s t ∧ t.pc = s.pc ∧ t.run = s.run ∧ t.events = s.events) ∧
    (7 < A.toNat ∨ 7 < B.toNat → Takes .invalidRegister s (exec (.cmp A B) s))

/-- 46 R204 with 44 R181: which jumps a comparison makes be taken, and which the reset value of fl does. -/
def Obligations.ConditionsAfterCompare : Prop :=
  (∀ p q : Byte,
    (condEq (comparator p q) = true ↔ p.toNat = q.toNat) ∧ (condNe (comparator p q) = true ↔ p.toNat ≠ q.toNat) ∧
    (condGt (comparator p q) = true ↔ p.toNat > q.toNat) ∧ (condLt (comparator p q) = true ↔ p.toNat < q.toNat) ∧
    (condGe (comparator p q) = true ↔ p.toNat ≥ q.toNat) ∧ (condLe (comparator p q) = true ↔ p.toNat ≤ q.toNat)) ∧
  (∀ fl : Byte, LegalFlags fl →
    (condEq fl = true ↔ fl = 1) ∧ (condNe fl = true ↔ fl = 0 ∨ fl = 2 ∨ fl = 4) ∧ (condGt fl = true ↔ fl = 2) ∧
    (condLt fl = true ↔ fl = 4) ∧ (condGe fl = true ↔ fl = 1 ∨ fl = 2) ∧ (condLe fl = true ↔ fl = 1 ∨ fl = 4))

/-! ### Stack -/

/-- 45 R191, PUSH. The value is read after the decrement, so PUSH r7 stores the decremented pointer. -/
def Obligations.PushDecrementsThenWrites : Prop :=
  ∀ (A : Byte) (s : State),
    EncodedAs (.push A) [0x45, A] ∧
    (∀ a : RegIdx, Names A a → s.x 7 ≠ 0 →
      ∃ t, exec (.push A) s = .next t ∧ (t.x 7).toNat + 1 = (s.x 7).toNat ∧ SameRegsBut [7] s t ∧
        t.mem.read ((s.x 7).toNat - 1) = t.x a ∧ SameMemBut ((s.x 7).toNat - 1) s t ∧
        t.pc = s.pc ∧ t.fl = s.fl ∧ t.run = s.run ∧ t.events = s.events) ∧
    (∀ a : RegIdx, Names A a → s.x 7 = 0 → Takes .stackOverflow s (exec (.push A) s)) ∧
    (7 < A.toNat → Takes .invalidRegister s (exec (.push A) s))

/-- 45 R192, POP. For register 7 the byte read is incremented, and it, not SP, decides the fault. -/
def Obligations.PopReadsThenIncrements : Prop :=
  ∀ (A : Byte) (s : State),
    EncodedAs (.pop A) [0x46, A] ∧
    (∀ a : RegIdx, Names A a → a ≠ 7 → s.x 7 ≠ 255 →
      ∃ t, exec (.pop A) s = .next t ∧ t.x a = s.mem.read (s.x 7).toNat ∧ (t.x 7).toNat = (s.x 7).toNat + 1 ∧
        SameRegsBut [a, 7] s t ∧ SameMem s t ∧ t.pc = s.pc ∧ t.fl = s.fl ∧ t.run = s.run ∧ t.events = s.events) ∧
    (∀ a : RegIdx, Names A a → a ≠ 7 → s.x 7 = 255 → Takes .stackUnderflow s (exec (.pop A) s)) ∧
    (∀ a : RegIdx, Names A a → a = 7 → s.mem.read (s.x 7).toNat ≠ 255 →
      ∃ t, exec (.pop A) s = .next t ∧ (t.x 7).toNat = (s.mem.read (s.x 7).toNat).toNat + 1 ∧
        SameRegsBut [7] s t ∧ SameMem s t ∧ t.pc = s.pc ∧ t.fl = s.fl ∧ t.run = s.run ∧ t.events = s.events) ∧
    (∀ a : RegIdx, Names A a → a = 7 → s.mem.read (s.x 7).toNat = 255 → Takes .stackUnderflow s (exec (.pop A) s)) ∧
    (7 < A.toNat → Takes .invalidRegister s (exec (.pop A) s))

/-- 45 R194: PUSH and then POP of the same register restore every register and fl, and leave the pushed value in the cell
below SP. With two different registers, neither of them register 7, the pair is a move (for register 7 the last sentence of R194
disagrees with R191 and R192, which the model follows). The cell pushed to is none of the POP's own bytes. -/
def Obligations.PushThenPop : Prop :=
  ∀ (s : State) (A B : Byte) (a b : RegIdx),
    s.run = .running → CodeAt s [0x45, A, 0x46, B] → Names A a → Names B b → s.x 7 ≠ 0 →
    (s.x 7).toNat - 1 ≠ s.pc.toNat + 2 → (s.x 7).toNat - 1 ≠ s.pc.toNat + 3 →
    a = b ∨ (a ≠ 7 ∧ b ≠ 7) →
      ∃ t u, step s = .next t ∧ step t = .next u ∧ u.run = .running ∧
        (a = b → SameRegsBut [] s u) ∧ (a ≠ b → SameRegsBut [b] s u ∧ u.x b = s.x a) ∧
        u.fl = s.fl ∧ u.events = s.events ∧ u.pc.toNat = s.pc.toNat + 4 ∧
        u.mem.read ((s.x 7).toNat - 1) = t.x a ∧ SameMemBut ((s.x 7).toNat - 1) s u

/-! ### Control transfer -/

/-- 46 R201, CALL. s.pc is the address of the next instruction, so its low 8 bits are the return address pushed. The target is
read after the push, so CALL r7 jumps to the decremented SP. -/
def Obligations.CallPushesReturnAddressAndJumps : Prop :=
  ∀ (A : Byte) (s : State),
    EncodedAs (.call A) [0x50, A] ∧
    (∀ a : RegIdx, Names A a → s.x 7 ≠ 0 →
      ∃ t, exec (.call A) s = .next t ∧ (t.x 7).toNat + 1 = (s.x 7).toNat ∧ SameRegsBut [7] s t ∧
        (t.mem.read ((s.x 7).toNat - 1)).toNat = s.pc.toNat % 256 ∧ SameMemBut ((s.x 7).toNat - 1) s t ∧
        t.pc.toNat = (t.x a).toNat ∧ t.fl = s.fl ∧ t.run = s.run ∧ t.events = s.events) ∧
    (∀ a : RegIdx, Names A a → s.x 7 = 0 → Takes .stackOverflow s (exec (.call A) s)) ∧
    (7 < A.toNat → Takes .invalidRegister s (exec (.call A) s))

/-- 46 R202, RET. -/
def Obligations.RetPopsPc : Prop :=
  ∀ s : State,
    EncodedAs .ret [0x11] ∧
    (s.x 7 ≠ 255 →
      ∃ t, exec .ret s = .next t ∧ (t.x 7).toNat = (s.x 7).toNat + 1 ∧ SameRegsBut [7] s t ∧
        t.pc.toNat = (s.mem.read (s.x 7).toNat).toNat ∧ SameMem s t ∧ t.fl = s.fl ∧ t.run = s.run ∧
        t.events = s.events) ∧
    (s.x 7 = 255 → Takes .stackUnderflow s (exec .ret s))

/-- 46 R211: CALL and then a RET at the target come back to the instruction after the CALL, with SP, every other register and fl as before
and the return address in the cell below SP. The target is not that cell; for register 7 it always is (R201), so a is another one. -/
def Obligations.CallThenReturn : Prop :=
  ∀ (s : State) (A : Byte) (a : RegIdx),
    s.run = .running → CodeAt s [0x50, A] → s.pc.toNat ≤ 253 → Names A a → a ≠ 7 → s.x 7 ≠ 0 →
    (s.x a).toNat ≠ (s.x 7).toNat - 1 → s.mem.read (s.x a).toNat = 0x11 →
      ∃ t u, step s = .next t ∧ t.pc.toNat = (s.x a).toNat ∧ step t = .next u ∧ u.run = .running ∧
        u.pc.toNat = s.pc.toNat + 2 ∧ SameRegsBut [] s u ∧ u.fl = s.fl ∧ u.events = s.events ∧
        (u.mem.read ((s.x 7).toNat - 1)).toNat = s.pc.toNat + 2 ∧ SameMemBut ((s.x 7).toNat - 1) s u

/-- 46 R200, JMP. -/
def Obligations.JmpSetsPcToRegister : Prop :=
  ∀ (A : Byte) (s : State),
    EncodedAs (.jmp A) [0x54, A] ∧
    (∀ a : RegIdx, Names A a →
      ∃ t, exec (.jmp A) s = .next t ∧ t.pc.toNat = (s.x a).toNat ∧ SameRegsBut [] s t ∧ SameMem s t ∧ t.fl = s.fl ∧
        t.run = s.run ∧ t.events = s.events) ∧
    (7 < A.toNat → Takes .invalidRegister s (exec (.jmp A) s))

/-- 46 R203 and R205 to R210: JEQ, JNE, JGT, JLT, JGE, JLE, their conditions on the bits of fl. -/
def Obligations.ConditionalJumpsTestFlags : Prop :=
  CondJumpRule 0x55 .jeq (fun fl => fl.getLsbD 0 = true) ∧
  CondJumpRule 0x56 .jne (fun fl => fl.getLsbD 0 = false) ∧
  CondJumpRule 0x57 .jgt (fun fl => fl.getLsbD 1 = true) ∧
  CondJumpRule 0x58 .jlt (fun fl => fl.getLsbD 2 = true) ∧
  CondJumpRule 0x5A .jge (fun fl => fl.getLsbD 1 = true ∨ fl.getLsbD 0 = true) ∧
  CondJumpRule 0x59 .jle (fun fl => fl.getLsbD 2 = true ∨ fl.getLsbD 0 = true)

/-! ### Memory access -/

/-- 47 R220, ST: the one cell at the address in register a is written with the value of register b. -/
def Obligations.StWritesOneCell : Prop :=
  ∀ (A B : Byte) (s : State),
    EncodedAs (.st A B) [0x84, A, B] ∧
    (∀ a b : RegIdx, Names A a → Names B b →
      ∃ t, exec (.st A B) s = .next t ∧ t.mem.read (s.address a) = s.x b ∧ SameMemBut (s.address a) s t ∧
        s.address a = (s.x a).toNat ∧ SameRegsBut [] s t ∧ t.pc = s.pc ∧ t.fl = s.fl ∧ t.run = s.run ∧
        t.events = s.events) ∧
    (7 < A.toNat ∨ 7 < B.toNat → Takes .invalidRegister s (exec (.st A B) s))

/-- 47 R221, LD: register a receives the byte at the address in register b, which is read before register a is written. -/
def Obligations.LdReadsOneCell : Prop :=
  ∀ (A B : Byte) (s : State),
    EncodedAs (.ld A B) [0x83, A, B] ∧
    (∀ a b : RegIdx, Names A a → Names B b →
      ∃ t, exec (.ld A B) s = .next t ∧ t.x a = s.mem.read (s.x b).toNat ∧ SameRegsBut [a] s t ∧ SameMem s t ∧
        t.pc = s.pc ∧ t.fl = s.fl ∧ t.run = s.run ∧ t.events = s.events) ∧
    (7 < A.toNat ∨ 7 < B.toNat → Takes .invalidRegister s (exec (.ld A B) s))

/-- 20_memory.md R63: a store is seen by the very next fetch of the stored address. After an ST at pc the next step's opcode fetch
reads the stored byte where it was stored to the next instruction's address, and the old byte anywhere else. -/
def Obligations.NextFetchSeesStore : Prop :=
  ∀ (s : State) (A B : Byte) (a b : RegIdx),
    s.run = .running → CodeAt s [0x84, A, B] → s.pc.toNat + 3 ≤ 255 → Names A a → Names B b →
      ∃ t, step s = .next t ∧ t.pc.toNat = s.pc.toNat + 3 ∧
        t.fetchOpcode = .ok (if (s.x a).toNat = s.pc.toNat + 3 then s.x b else s.mem.read (s.pc.toNat + 3))

/-! ### System -/

/-- 48 R230, R233, R234: NOP, INT and IRET change nothing, INT whatever its operand byte; the whole effect is the step's
advance. -/
def Obligations.NopIntIretChangeNothing : Prop :=
  (NoEffect .nop ∧ EncodedAs .nop [0x00]) ∧ (∀ A : Byte, NoEffect (.int A) ∧ EncodedAs (.int A) [0x52, A]) ∧
  (NoEffect .iret ∧ EncodedAs .iret [0x13])

/-- 48 R232, HLT: the run state becomes Halted and nothing else changes; no further step changes anything. -/
def Obligations.HltHaltsForGood : Prop :=
  ∀ s : State,
    EncodedAs .hlt [0x01] ∧
    ∃ t, exec .hlt s = .next t ∧ t.run = .halted ∧ EndedWell t ∧ SameRegsBut [] s t ∧ SameMem s t ∧ t.pc = s.pc ∧
      t.fl = s.fl ∧ t.events = s.events ∧ step t = .next t

/-! ### The host's side -/

/-- 70 R277, with the length limit of R278: the load copies the program to the cells from 0 up and changes nothing else; a program of
more than 256 bytes is refused with OutOfBounds. -/
def Obligations.LoadCopiesProgramVerbatim : Prop :=
  ∀ (memInit : Memory) (program : List Byte),
    (program.length ≤ 256 →
      ∃ t, boot memInit program = .ok t ∧
        (∀ k (h : k < program.length), t.mem.read k = program[k]) ∧
        (∀ k, program.length ≤ k → t.mem.read k = memInit.read k) ∧
        t = { State.resetWith memInit with mem := t.mem }) ∧
    (256 < program.length → ∃ info, boot memInit program = .error ⟨.outOfBounds, info⟩)

/-- 40_step_cycle.md R118, 60_exceptions.md R260: run is the repetition of steps, so a run cut in two gives what the whole run gives, and a
run that has ended stays as it ended. -/
def Obligations.RunIsRepeatedStep : Prop :=
  (∀ (m n : Nat) (s : State), State.runSteps (m + n) s = State.runSteps n (State.runSteps m s)) ∧
  (∀ s : State, State.runSteps 1 s = s.afterStep) ∧
  (∀ (n : Nat) (s : State), Ended s → State.runSteps n s = s)

/-- 70 R280: the host changes the core only by a reset, by the one load between reset and the first step, and by steps and runs after
it, each exactly as asked and with its own reply; and each of these moves is there exactly when the table allows it. The phases of a
session, that of a failed load among them, are the model's own (log entry 12). -/
def Obligations.HostChangesCoreOnlyByItsMoves : Prop :=
  (∀ (memInit : Memory) (v w : Session) (act : HostAct) (reply : HostReply), hostAct memInit v act = some (w, reply) →
    (act = .reset ∧ w = ⟨State.resetWith memInit, .fresh⟩ ∧ reply = .done) ∨
    (v.phase = .fresh ∧ ∃ program, act = .load program ∧
      (program.length ≤ 256 ∧ v.core.load program = .ok w.core ∧ w.phase = .loaded ∧ reply = .done ∨
        256 < program.length ∧ w = ⟨v.core, .spoiled⟩ ∧ reply = .error .outOfBounds)) ∨
    (v.phase = .loaded ∧ act = .step ∧ step v.core = .next w.core ∧ w.phase = .loaded ∧ reply = .status w.core.run) ∨
    (v.phase = .loaded ∧ ∃ limit, act = .run limit ∧ w = ⟨State.runSteps limit v.core, .loaded⟩ ∧
      (w.core.run = .running ∧ reply = .cutOff ∨ w.core.run = .halted ∧ reply = .state w.core ∨
        ∃ k, w.core.run = .faulted k ∧ reply = .error k)) ∨
    (act = .snapshot ∧ w = v ∧ reply = .state v.core)) ∧
  ∀ (memInit : Memory) (v : Session) (act : HostAct),
    (∃ w reply, hostAct memInit v act = some (w, reply)) ↔
      act = .reset ∨ act = .snapshot ∨ (v.phase = .fresh ∧ ∃ program, act = .load program) ∨
        (v.phase = .loaded ∧ (act = .step ∨ ∃ limit, act = .run limit))

/-- Two canonical memories that read alike are the same list, so equal memories are equal data (the list form is the model's own,
log entry 1; 10_state.md R42). -/
def Obligations.MemoryIsCanonical : Prop :=
  ∀ m n : Memory, m.wf → n.wf → (∀ a, a < 256 → m.read a = n.read a) → m = n
end

