-- ==== Sys2Proof/Laws/Decode.lean ====
section
/-! SUPPORT. The small lemmas of the opcode map. -/

namespace Sys2Proof

@[simp] theorem Opcode.ofByte_byte (op : Opcode) : Opcode.ofByte op.byte = some op := by
  cases op <;> rfl

theorem Opcode.ofByte_eq_some {b : Byte} {op : Opcode} : Opcode.ofByte b = some op ↔ op.byte = b := by
  refine ⟨fun h => ?_, fun h => h ▸ op.ofByte_byte⟩
  simpa using List.find?_some h

theorem Opcode.mem_all (op : Opcode) : op ∈ Opcode.all := by
  cases op <;> decide

theorem Opcode.ofByte_eq_none {b : Byte} : Opcode.ofByte b = none ↔ ∀ op : Opcode, op.byte ≠ b := by
  simp only [Opcode.ofByte, List.find?_eq_none, decide_eq_true_eq]
  exact ⟨fun h op => h op op.mem_all, fun h op _ => h op⟩

/-- An opcode and the operand bytes its format has make an instruction with that opcode. -/
@[simp] theorem Opcode.opcode_instr (op : Opcode) (A B : Byte) : (op.instr A B).opcode = op := by
  cases op <;> rfl

theorem Opcode.operandBytes_instr (op : Opcode) (A B : Byte) :
    (op.instr A B).operandBytes = [A, B].take op.format.operands := by
  cases op <;> rfl

theorem Instr.length_operandBytes (i : Instr) : i.operandBytes.length = i.opcode.format.operands := by
  cases i <;> rfl

/-- Bits 7:6 of an opcode byte are its format's operand count (30_encoding.md R90 (b)). -/
@[simp] theorem Opcode.operandCount_byte (op : Opcode) : operandCount op.byte = op.format.operands := by
  cases op <;> decide

theorem Format.operands_le (f : Format) : f.operands ≤ 2 := by
  cases f <;> decide

end Sys2Proof
end

