-- ==== Sys2Proof/Laws/State.lean ====
section
/-! SUPPORT. One lemma per field and update of State, so that no later proof unfolds a record update. -/

namespace Sys2Proof.Machine

@[simp] theorem State.x_setX (s : State) (i j : RegIdx) (v : Byte) :
    (s.setX i v).x j = if j = i then v else s.x j := by
  simp only [State.x, State.setX, Vector.get_eq_getElem, Vector.getElem_set]
  by_cases h : j = i
  · simp [h]
  · rw [if_neg fun e => h (Fin.ext e.symm), if_neg h]

/-- Two states with equal fields are equal; the registers are compared one by one. -/
theorem State.ext_x (s t : State) (hx : ∀ r, t.x r = s.x r) (hpc : t.pc = s.pc) (hfl : t.fl = s.fl)
    (hrun : t.run = s.run) (hmem : t.mem = s.mem) (hev : t.events = s.events) : t = s := by
  obtain ⟨regs, pc, fl, run, mem, events⟩ := s
  obtain ⟨regs', pc', fl', run', mem', events'⟩ := t
  have hr : regs' = regs := Vector.ext fun k hk => by simpa [State.x, Vector.get_eq_getElem] using hx ⟨k, hk⟩
  simp_all

@[simp] theorem State.pc_setX (s : State) (i : RegIdx) (v : Byte) : (s.setX i v).pc = s.pc := rfl
@[simp] theorem State.fl_setX (s : State) (i : RegIdx) (v : Byte) : (s.setX i v).fl = s.fl := rfl
@[simp] theorem State.run_setX (s : State) (i : RegIdx) (v : Byte) : (s.setX i v).run = s.run := rfl
@[simp] theorem State.mem_setX (s : State) (i : RegIdx) (v : Byte) : (s.setX i v).mem = s.mem := rfl
@[simp] theorem State.events_setX (s : State) (i : RegIdx) (v : Byte) : (s.setX i v).events = s.events := rfl
@[simp] theorem State.sp_setX (s : State) (i : RegIdx) (v : Byte) :
    (s.setX i v).sp = if Config.spIndex = i then v else s.sp := State.x_setX s i Config.spIndex v

@[simp] theorem State.x_setPc (s : State) (p : PcWord) (j : RegIdx) : (s.setPc p).x j = s.x j := rfl
@[simp] theorem State.pc_setPc (s : State) (p : PcWord) : (s.setPc p).pc = p := rfl
@[simp] theorem State.fl_setPc (s : State) (p : PcWord) : (s.setPc p).fl = s.fl := rfl
@[simp] theorem State.run_setPc (s : State) (p : PcWord) : (s.setPc p).run = s.run := rfl
@[simp] theorem State.mem_setPc (s : State) (p : PcWord) : (s.setPc p).mem = s.mem := rfl
@[simp] theorem State.events_setPc (s : State) (p : PcWord) : (s.setPc p).events = s.events := rfl
@[simp] theorem State.sp_setPc (s : State) (p : PcWord) : (s.setPc p).sp = s.sp := rfl

@[simp] theorem State.x_setFl (s : State) (f : Byte) (j : RegIdx) : (s.setFl f).x j = s.x j := rfl
@[simp] theorem State.pc_setFl (s : State) (f : Byte) : (s.setFl f).pc = s.pc := rfl
@[simp] theorem State.fl_setFl (s : State) (f : Byte) : (s.setFl f).fl = f := rfl
@[simp] theorem State.run_setFl (s : State) (f : Byte) : (s.setFl f).run = s.run := rfl
@[simp] theorem State.mem_setFl (s : State) (f : Byte) : (s.setFl f).mem = s.mem := rfl
@[simp] theorem State.events_setFl (s : State) (f : Byte) : (s.setFl f).events = s.events := rfl
@[simp] theorem State.sp_setFl (s : State) (f : Byte) : (s.setFl f).sp = s.sp := rfl

@[simp] theorem State.x_setMem (s : State) (m : Memory) (j : RegIdx) : (s.setMem m).x j = s.x j := rfl
@[simp] theorem State.pc_setMem (s : State) (m : Memory) : (s.setMem m).pc = s.pc := rfl
@[simp] theorem State.fl_setMem (s : State) (m : Memory) : (s.setMem m).fl = s.fl := rfl
@[simp] theorem State.run_setMem (s : State) (m : Memory) : (s.setMem m).run = s.run := rfl
@[simp] theorem State.mem_setMem (s : State) (m : Memory) : (s.setMem m).mem = m := rfl
@[simp] theorem State.events_setMem (s : State) (m : Memory) : (s.setMem m).events = s.events := rfl
@[simp] theorem State.sp_setMem (s : State) (m : Memory) : (s.setMem m).sp = s.sp := rfl

@[simp] theorem State.x_setRun (s : State) (r : RunState) (j : RegIdx) : (s.setRun r).x j = s.x j := rfl
@[simp] theorem State.pc_setRun (s : State) (r : RunState) : (s.setRun r).pc = s.pc := rfl
@[simp] theorem State.fl_setRun (s : State) (r : RunState) : (s.setRun r).fl = s.fl := rfl
@[simp] theorem State.run_setRun (s : State) (r : RunState) : (s.setRun r).run = r := rfl
@[simp] theorem State.mem_setRun (s : State) (r : RunState) : (s.setRun r).mem = s.mem := rfl
@[simp] theorem State.events_setRun (s : State) (r : RunState) : (s.setRun r).events = s.events := rfl
@[simp] theorem State.sp_setRun (s : State) (r : RunState) : (s.setRun r).sp = s.sp := rfl

@[simp] theorem State.x_emit (s : State) (e : Event) (j : RegIdx) : (s.emit e).x j = s.x j := rfl
@[simp] theorem State.pc_emit (s : State) (e : Event) : (s.emit e).pc = s.pc := rfl
@[simp] theorem State.fl_emit (s : State) (e : Event) : (s.emit e).fl = s.fl := rfl
@[simp] theorem State.run_emit (s : State) (e : Event) : (s.emit e).run = s.run := rfl
@[simp] theorem State.mem_emit (s : State) (e : Event) : (s.emit e).mem = s.mem := rfl
@[simp] theorem State.events_emit (s : State) (e : Event) : (s.emit e).events = s.events ++ [e] := rfl
@[simp] theorem State.sp_emit (s : State) (e : Event) : (s.emit e).sp = s.sp := rfl

@[simp] theorem State.x_raise (s : State) (r : Raised) (j : RegIdx) : (s.raise r).x j = s.x j := rfl
@[simp] theorem State.pc_raise (s : State) (r : Raised) : (s.raise r).pc = s.pc := rfl
@[simp] theorem State.fl_raise (s : State) (r : Raised) : (s.raise r).fl = s.fl := rfl
@[simp] theorem State.run_raise (s : State) (r : Raised) : (s.raise r).run = .faulted r.kind := rfl
@[simp] theorem State.mem_raise (s : State) (r : Raised) : (s.raise r).mem = s.mem := rfl
@[simp] theorem State.events_raise (s : State) (r : Raised) : (s.raise r).events = s.events := rfl
@[simp] theorem State.sp_raise (s : State) (r : Raised) : (s.raise r).sp = s.sp := rfl

@[simp] theorem State.sp_eq (s : State) : s.x 7 = s.sp := rfl

@[simp] theorem State.setMem_mem (s : State) : s.setMem s.mem = s := rfl

@[simp] theorem State.setPc_pc (s : State) : s.setPc s.pc = s := rfl

end Sys2Proof.Machine
end

