-- ==== Sys2Proof/Laws/Ops.lean ====
section
/-! SUPPORT. One lemma per shared operation: everything it can do. Later proofs cite these and do not unfold the operations. -/

namespace Sys2Proof.Machine

/-! ### Widths -/

theorem toNat_trunc8 (v : Int) : (trunc8 v).toNat = (v % 256).toNat := by
  simp [trunc8, BitVec.toNat_ofInt]

@[simp] theorem trunc8_toNat (p : Byte) : trunc8 (p.toNat : Int) = p := by
  apply BitVec.eq_of_toNat_eq
  rw [toNat_trunc8]
  have := p.isLt
  omega

@[simp] theorem toNat_zext9 (v : Byte) : (zext9 v).toNat = v.toNat := by
  have := v.isLt
  simp [zext9, BitVec.toNat_setWidth]
  omega

/-! ### Register indices -/

theorem reg_eq_ok {A : Byte} {a : RegIdx} : reg A = .ok a ↔ A.toNat = a.val := by
  unfold reg
  split
  · simp [Fin.ext_iff]
  · have := a.isLt
    simp
    omega

theorem reg_of_gt {A : Byte} (h : 7 < A.toNat) : reg A = .error ⟨.invalidRegister, some A.toNat⟩ := by
  simp [reg, show ¬ A.toNat < 8 by omega]

/-- Every operand byte names a register or is above 7. -/
theorem reg_cases (A : Byte) :
    (∃ a : RegIdx, A.toNat = a.val ∧ reg A = .ok a) ∨
      (7 < A.toNat ∧ reg A = .error ⟨.invalidRegister, some A.toNat⟩) := by
  by_cases h : A.toNat < 8
  · exact .inl ⟨⟨A.toNat, h⟩, rfl, reg_eq_ok.mpr rfl⟩
  · exact .inr ⟨by omega, reg_of_gt (by omega)⟩

/-! ### The end of an instruction -/

@[simp] theorem State.finish_ok (s t : State) : s.finish (.ok t) = .next t := rfl

@[simp] theorem State.finish_error (s : State) (e : Raised) : s.finish (.error e) = .next (s.raise e) := rfl

/-- An instruction that ends by finish answers a next state: what its rule leaves, or s with a fault taken. -/
theorem State.finish_cases (s : State) (r : Except Raised State) :
    (∃ t, r = .ok t ∧ s.finish r = .next t) ∨ (∃ e, r = .error e ∧ s.finish r = .next (s.raise e)) := by
  cases r with
  | ok t => exact .inl ⟨t, rfl, rfl⟩
  | error e => exact .inr ⟨e, rfl, rfl⟩

/-! ### The memory port -/

theorem State.memRead_of_lt (s : State) {a : Nat} (h : a < 256) : s.memRead a = .ok (s.mem.read a) := by
  simp [State.memRead, Config.memSize, h]

theorem State.memRead_of_ge (s : State) {a : Nat} (h : 255 < a) : s.memRead a = .error ⟨.outOfBounds, some a⟩ := by
  simp [State.memRead, Config.memSize, show ¬ a < 256 by omega]

/-- A data access has an 8-bit address, so it is never out of bounds (20_memory.md R67). -/
@[simp] theorem State.memRead_byte (s : State) (v : Byte) : s.memRead v.toNat = .ok (s.mem.read v.toNat) :=
  s.memRead_of_lt v.isLt

@[simp] theorem State.memWrite_byte (s : State) (v : Byte) (w : Int) :
    s.memWrite v.toNat w = .ok (s.setMem (s.mem.write v.toNat (trunc8 w))) := by
  simp [State.memWrite, Config.memSize, v.isLt]

/-! ### The stack pointer controller -/

theorem State.stackPush_zero {s : State} (h : s.sp = 0) (v : State → Int) :
    s.stackPush v = .error ⟨.stackOverflow, none⟩ := by
  simp [State.stackPush, h]

/-- A push with SP above 0 succeeds: SP is decremented and the value, read after the decrement, is written at it. -/
theorem State.stackPush_pos {s : State} (h : s.sp ≠ 0) (v : State → Int) :
    s.stackPush v =
      .ok ((s.setX 7 (s.sp - 1)).setMem (s.mem.write (s.sp - 1).toNat (trunc8 (v (s.setX 7 (s.sp - 1)))))) := by
  have hd : trunc8 (s.sp.toNat - 1) = s.sp - 1 := by
    apply BitVec.eq_of_toNat_eq
    have h0 : s.sp.toNat ≠ 0 := fun e => h (BitVec.eq_of_toNat_eq (by simpa using e))
    have := s.sp.isLt
    rw [toNat_trunc8, BitVec.toNat_sub]
    simp
    omega
  have ht : (s.setX 7 (s.sp - 1)).sp = s.sp - 1 := by simp
  rw [State.stackPush, if_neg h]
  simp only [Config.spIndex, hd]
  rw [ht, State.memWrite_byte]
  rfl

theorem spInc_of_ne {b : Byte} (h : b ≠ 255) : spInc b = .ok (b + 1) := by
  have hb : b.toNat ≠ 255 := fun e => h (BitVec.eq_of_toNat_eq (by simpa using e))
  have := b.isLt
  rw [spInc, if_neg (by omega)]
  refine congrArg _ (BitVec.eq_of_toNat_eq ?_)
  rw [toNat_trunc8, BitVec.toNat_add]
  simp
  omega

@[simp] theorem spInc_top : spInc 255 = .error ⟨.stackUnderflow, none⟩ := rfl

/-! ### The operand forms -/

theorem onReg_names {A : Byte} {a : RegIdx} (h : A.toNat = a.val) (s : State) (f : RegIdx → Except Raised State) :
    onReg A s f = s.finish (f a) := by
  rw [onReg, reg_eq_ok.mpr h]
  rfl

theorem onReg_gt {A : Byte} (h : 7 < A.toNat) (s : State) (f : RegIdx → Except Raised State) :
    onReg A s f = .next (s.setRun (.faulted .invalidRegister)) := by
  rw [onReg, reg_of_gt h]
  rfl

theorem onRegs_names {A B : Byte} {a b : RegIdx} (ha : A.toNat = a.val) (hb : B.toNat = b.val) (s : State)
    (f : RegIdx → RegIdx → Except Raised State) : onRegs A B s f = s.finish (f a b) := by
  rw [onRegs, reg_eq_ok.mpr ha, reg_eq_ok.mpr hb]
  rfl

theorem onRegs_gt {A B : Byte} (h : 7 < A.toNat ∨ 7 < B.toNat) (s : State)
    (f : RegIdx → RegIdx → Except Raised State) :
    onRegs A B s f = .next (s.setRun (.faulted .invalidRegister)) := by
  rcases reg_cases A with ⟨a, ha, hra⟩ | ⟨-, hra⟩
  · have := a.isLt
    rw [onRegs, hra, reg_of_gt (A := B) (by omega)]
    rfl
  · rw [onRegs, hra]
    rfl

/-- What an instruction with one register operand can do. -/
theorem onReg_cases {A : Byte} {s t : State} {f : RegIdx → Except Raised State} (h : onReg A s f = .next t) :
    (∃ a : RegIdx, A.toNat = a.val ∧ f a = .ok t) ∨ (∃ e, t = s.raise e) := by
  rcases reg_cases A with ⟨a, ha, -⟩ | ⟨hA, -⟩
  · rw [onReg_names ha] at h
    rcases s.finish_cases (f a) with ⟨u, hf, hu⟩ | ⟨e, -, hu⟩ <;> rw [hu] at h <;> injection h with h
    · exact .inl ⟨a, ha, h ▸ hf⟩
    · exact .inr ⟨e, h.symm⟩
  · rw [onReg_gt hA] at h
    injection h with h
    exact .inr ⟨⟨.invalidRegister, none⟩, h.symm⟩

/-- What an instruction with two register operands can do. -/
theorem onRegs_cases {A B : Byte} {s t : State} {f : RegIdx → RegIdx → Except Raised State}
    (h : onRegs A B s f = .next t) :
    (∃ a b : RegIdx, A.toNat = a.val ∧ B.toNat = b.val ∧ f a b = .ok t) ∨ (∃ e, t = s.raise e) := by
  by_cases hbad : 7 < A.toNat ∨ 7 < B.toNat
  · rw [onRegs_gt hbad] at h
    injection h with h
    exact .inr ⟨⟨.invalidRegister, none⟩, h.symm⟩
  · have ha : A.toNat < 8 := by omega
    have hb : B.toNat < 8 := by omega
    rw [onRegs_names (a := ⟨_, ha⟩) (b := ⟨_, hb⟩) rfl rfl] at h
    rcases s.finish_cases (f ⟨_, ha⟩ ⟨_, hb⟩) with ⟨u, hf, hu⟩ | ⟨e, -, hu⟩ <;> rw [hu] at h <;> injection h with h
    · exact .inl ⟨_, _, rfl, rfl, h ▸ hf⟩
    · exact .inr ⟨e, h.symm⟩

end Sys2Proof.Machine
end

