-- ==== Sys2Proof/Laws/Exec.lean ====
section
/-! SUPPORT. What an instruction can do, said once for all 34: the cases of Effect. The global claims (frames, invariants) go by
cases on it and do not unfold exec. -/

namespace Sys2Proof.Machine

/-- The comparator's three answers (44_compare.md R181). -/
theorem comparator_cases (p q : Byte) :
    (p.toNat = q.toNat ∧ comparator p q = 1) ∨ (p.toNat > q.toNat ∧ comparator p q = 2) ∨
      (p.toNat < q.toNat ∧ comparator p q = 4) := by
  have e : p = q ↔ p.toNat = q.toNat := by rw [← BitVec.toNat_inj]
  unfold comparator
  rcases lt_trichotomy p.toNat q.toNat with h | h | h
  · exact .inr (.inr ⟨h, by rw [if_neg (by rw [e]; omega), if_neg (by omega)]; rfl⟩)
  · exact .inl ⟨h, by rw [if_pos (e.mpr h)]; rfl⟩
  · exact .inr (.inl ⟨h, by rw [if_neg (by rw [e]; omega), if_pos h]; rfl⟩)

/-- The instructions that change nothing but, at most, pc: the jumps and the no-ops. -/
def onlyPc : Instr → Bool
  | .nop | .int _ | .iret | .jmp _ | .jeq _ | .jne _ | .jgt _ | .jlt _ | .jge _ | .jle _ => true
  | _ => false

/-- The instructions that change nothing but, at most, the register of their first operand: LDI, the ALU, LD. -/
def onlyReg : Instr → Bool
  | .ldi _ _ | .add _ _ | .sub _ _ | .mul _ _ | .div _ _ | .mod _ _ | .inc _ | .dec _ | .and _ _ | .or _ _ | .xor _ _
  | .not _ | .shl _ _ | .shr _ _ | .ld _ _ => true
  | _ => false

/-- The states t in which an instruction i executed at s can end. -/
inductive Effect : Instr → State → State → Prop where
  /-- A fault was taken and nothing else changed. -/
  | raised (i : Instr) (s : State) (e : Raised) : Effect i s (s.raise e)
  /-- Nothing changed: NOP, INT, IRET, a conditional jump not taken. -/
  | same (i : Instr) (s : State) (h : onlyPc i = true) : Effect i s s
  /-- One register changed: LDI, the ALU, LD. -/
  | wroteReg (i : Instr) (s : State) (A : Byte) (a : RegIdx) (v : Byte) (h : onlyReg i = true)
      (hi : i.regsWritten = [A]) (ha : A.toNat = a.val) : Effect i s (s.setX a v)
  /-- A jump taken. -/
  | jumped (i : Instr) (s : State) (v : Byte) (h : onlyPc i = true) : Effect i s (s.setPc (zext9 v))
  | compared (A B p q : Byte) (s : State) : Effect (.cmp A B) s (s.setFl (comparator p q))
  | printedNumber (A v : Byte) (s : State) : Effect (.prn A) s (s.emit (.num v))
  | printedCharacter (A v : Byte) (s : State) : Effect (.pra A) s (s.emit (.chr v))
  | stored (A B : Byte) (a b : RegIdx) (s : State) (ha : A.toNat = a.val) (hb : B.toNat = b.val) :
      Effect (.st A B) s (s.setMem (s.mem.write (s.x a).toNat (s.x b)))
  | pushed (A : Byte) (a : RegIdx) (s : State) (ha : A.toNat = a.val) (h : s.sp ≠ 0) :
      Effect (.push A) s
        ((s.setX 7 (s.sp - 1)).setMem (s.mem.write (s.sp - 1).toNat ((s.setX 7 (s.sp - 1)).x a)))
  | popped (A v w : Byte) (a : RegIdx) (s : State) (ha : A.toNat = a.val) :
      Effect (.pop A) s ((s.setX a v).setX 7 w)
  | called (A : Byte) (a : RegIdx) (s : State) (ha : A.toNat = a.val) (h : s.sp ≠ 0) :
      Effect (.call A) s
        (((s.setX 7 (s.sp - 1)).setMem (s.mem.write (s.sp - 1).toNat (trunc8 s.pc.toNat))).setPc
          (zext9 ((s.setX 7 (s.sp - 1)).x a)))
  | returned (s : State) (h : s.sp ≠ 255) :
      Effect .ret s ((s.setX 7 (s.sp + 1)).setPc (zext9 (s.mem.read s.sp.toNat)))
  | halted (s : State) : Effect .hlt s (s.setRun .halted)

theorem alu1_effect {i : Instr} {op : Byte → Byte} {A : Byte} {s t : State} (h1 : onlyReg i = true) (hi : i.regsWritten = [A])
    (h : alu1 op A s = .next t) : Effect i s t := by
  rcases onReg_cases h with ⟨a, ha, hf⟩ | ⟨e, rfl⟩
  · injection hf with hf
    exact hf ▸ .wroteReg i s A a _ h1 hi ha
  · exact .raised i s e

theorem alu2_effect {i : Instr} {op : Byte → Byte → Except Raised Byte} {A B : Byte} {s t : State}
    (h1 : onlyReg i = true) (hi : i.regsWritten = [A]) (h : alu2 op A B s = .next t) : Effect i s t := by
  rcases onRegs_cases h with ⟨a, b, ha, -, hf⟩ | ⟨e, rfl⟩
  · cases hv : op (s.x a) (s.x b) with
    | error e => simp [hv, bind, Except.bind] at hf
    | ok v =>
      simp only [hv, bind, Except.bind] at hf
      injection hf with hf
      exact hf ▸ .wroteReg i s A a v h1 hi ha
  · exact .raised i s e

theorem jumpIf_effect {i : Instr} {c : Byte → Bool} {A : Byte} {s t : State} (hi : onlyPc i = true)
    (h : jumpIf c A s = .next t) : Effect i s t := by
  rcases onReg_cases h with ⟨a, -, hf⟩ | ⟨e, rfl⟩
  · injection hf with hf
    subst hf
    split
    · exact .jumped i s _ hi
    · exact .same i s hi
  · exact .raised i s e

/-- What an instruction can do. -/
theorem exec_effect (i : Instr) {s t : State} (h : exec i s = .next t) : Effect i s t := by
  cases i with
  | add A B | sub A B | mul A B | div A B | mod A B | and A B | or A B | xor A B | shl A B | shr A B =>
    exact alu2_effect rfl rfl h
  | inc A | dec A | not A => exact alu1_effect rfl rfl h
  | jeq A | jne A | jgt A | jlt A | jge A | jle A => exact jumpIf_effect rfl h
  | nop | iret =>
    injection h with h
    exact h ▸ .same _ s rfl
  | int A =>
    injection h with h
    exact h ▸ .same _ s rfl
  | hlt =>
    injection h with h
    exact h ▸ .halted s
  | ldi A B =>
    rcases onReg_cases h with ⟨a, ha, hf⟩ | ⟨e, rfl⟩
    · injection hf with hf
      exact hf ▸ .wroteReg _ s A a B rfl rfl ha
    · exact .raised _ s e
  | prn A =>
    rcases onReg_cases h with ⟨a, -, hf⟩ | ⟨e, rfl⟩
    · injection hf with hf
      exact hf ▸ .printedNumber A _ s
    · exact .raised _ s e
  | pra A =>
    rcases onReg_cases h with ⟨a, -, hf⟩ | ⟨e, rfl⟩
    · injection hf with hf
      exact hf ▸ .printedCharacter A _ s
    · exact .raised _ s e
  | cmp A B =>
    rcases onRegs_cases h with ⟨a, b, -, -, hf⟩ | ⟨e, rfl⟩
    · injection hf with hf
      exact hf ▸ .compared A B _ _ s
    · exact .raised _ s e
  | push A =>
    rcases onReg_cases h with ⟨a, ha, hf⟩ | ⟨e, rfl⟩
    · by_cases h0 : s.sp = 0
      · simp [State.stackPush_zero h0] at hf
      · rw [State.stackPush_pos h0, trunc8_toNat] at hf
        injection hf with hf
        exact hf ▸ .pushed A a s ha h0
    · exact .raised _ s e
  | pop A =>
    rcases onReg_cases h with ⟨a, ha, hf⟩ | ⟨e, rfl⟩
    · rw [State.memRead_byte] at hf
      simp only [bind, Except.bind] at hf
      split at hf
      · simp at hf
      · injection hf with hf
        exact hf ▸ .popped A _ _ a s ha
    · exact .raised _ s e
  | call A =>
    rcases onReg_cases h with ⟨a, ha, hf⟩ | ⟨e, rfl⟩
    · by_cases h0 : s.sp = 0
      · simp [State.stackPush_zero h0, bind, Except.bind] at hf
      · rw [State.stackPush_pos h0] at hf
        injection hf with hf
        exact hf ▸ .called A a s ha h0
    · exact .raised _ s e
  | ret =>
    unfold exec execRet at h
    by_cases h0 : s.sp = 255
    · rw [h0] at h
      injection h with h
      exact h ▸ .raised _ s _
    · rw [spInc_of_ne h0, State.memRead_byte] at h
      injection h with h
      exact h ▸ .returned s h0
  | jmp A =>
    rcases onReg_cases h with ⟨a, -, hf⟩ | ⟨e, rfl⟩
    · injection hf with hf
      exact hf ▸ .jumped _ s _ rfl
    · exact .raised _ s e
  | st A B =>
    rcases onRegs_cases h with ⟨a, b, ha, hb, hf⟩ | ⟨e, rfl⟩
    · rw [State.address, State.memWrite_byte, trunc8_toNat] at hf
      injection hf with hf
      exact hf ▸ .stored A B a b s ha hb
    · exact .raised _ s e
  | ld A B =>
    rcases onRegs_cases h with ⟨a, b, ha, hb, hf⟩ | ⟨e, rfl⟩
    · rw [State.address, State.memRead_byte] at hf
      injection hf with hf
      exact hf ▸ .wroteReg _ s A a _ rfl rfl ha
    · exact .raised _ s e

end Sys2Proof.Machine
end

