-- ==== Sys2Proof/Laws/PerInstr.lean ====
section
/-! SUPPORT. The per-instruction family EncodeShape: one lemma per constructor of Instr. -/

namespace Sys2Proof.Laws.EncodeShape

/-- The encoding is the opcode byte and then as many operand bytes as bits 7:6 of the opcode byte say, at most two
(30_encoding.md R80, R82). -/
def Statement (i : Instr) : Prop :=
  (encode i).head? = some i.opcode.byte ∧ (encode i).length = 1 + operandCount i.opcode.byte ∧ (encode i).length ≤ 3

theorem of_format (i : Instr) : Statement i := by
  have := i.opcode.format.operands_le
  refine ⟨rfl, ?_, ?_⟩ <;> simp [encode, i.length_operandBytes] <;> omega

theorem ldi (A B : Byte) : Statement (.ldi A B) := of_format _
theorem prn (A : Byte) : Statement (.prn A) := of_format _
theorem pra (A : Byte) : Statement (.pra A) := of_format _
theorem add (A B : Byte) : Statement (.add A B) := of_format _
theorem sub (A B : Byte) : Statement (.sub A B) := of_format _
theorem mul (A B : Byte) : Statement (.mul A B) := of_format _
theorem div (A B : Byte) : Statement (.div A B) := of_format _
theorem mod (A B : Byte) : Statement (.mod A B) := of_format _
theorem inc (A : Byte) : Statement (.inc A) := of_format _
theorem dec (A : Byte) : Statement (.dec A) := of_format _
theorem and (A B : Byte) : Statement (.and A B) := of_format _
theorem or (A B : Byte) : Statement (.or A B) := of_format _
theorem xor (A B : Byte) : Statement (.xor A B) := of_format _
theorem not (A : Byte) : Statement (.not A) := of_format _
theorem shl (A B : Byte) : Statement (.shl A B) := of_format _
theorem shr (A B : Byte) : Statement (.shr A B) := of_format _
theorem cmp (A B : Byte) : Statement (.cmp A B) := of_format _
theorem push (A : Byte) : Statement (.push A) := of_format _
theorem pop (A : Byte) : Statement (.pop A) := of_format _
theorem call (A : Byte) : Statement (.call A) := of_format _
theorem ret : Statement (.ret) := of_format _
theorem jmp (A : Byte) : Statement (.jmp A) := of_format _
theorem jeq (A : Byte) : Statement (.jeq A) := of_format _
theorem jne (A : Byte) : Statement (.jne A) := of_format _
theorem jgt (A : Byte) : Statement (.jgt A) := of_format _
theorem jlt (A : Byte) : Statement (.jlt A) := of_format _
theorem jge (A : Byte) : Statement (.jge A) := of_format _
theorem jle (A : Byte) : Statement (.jle A) := of_format _
theorem st (A B : Byte) : Statement (.st A B) := of_format _
theorem ld (A B : Byte) : Statement (.ld A B) := of_format _
theorem nop : Statement (.nop) := of_format _
theorem hlt : Statement (.hlt) := of_format _
theorem int (A : Byte) : Statement (.int A) := of_format _
theorem iret : Statement (.iret) := of_format _

end Sys2Proof.Laws.EncodeShape
end

