-- ==== Sys2Proof/Laws/Step.lean ====
section
/-! SUPPORT. Everything a step can do, said once. -/

namespace Sys2Proof.Machine

@[simp] theorem State.x_advance (s : State) (op : Byte) (r : RegIdx) : (s.advance op).x r = s.x r := rfl
@[simp] theorem State.sp_advance (s : State) (op : Byte) : (s.advance op).sp = s.sp := rfl
@[simp] theorem State.pc_advance (s : State) (op : Byte) :
    (s.advance op).pc = s.pc + 1 + BitVec.ofNat 9 (operandCount op) := rfl
@[simp] theorem State.fl_advance (s : State) (op : Byte) : (s.advance op).fl = s.fl := rfl
@[simp] theorem State.run_advance (s : State) (op : Byte) : (s.advance op).run = s.run := rfl
@[simp] theorem State.mem_advance (s : State) (op : Byte) : (s.advance op).mem = s.mem := rfl
@[simp] theorem State.events_advance (s : State) (op : Byte) : (s.advance op).events = s.events := rfl

theorem operandCount_lt (b : Byte) : operandCount b < 4 := by
  unfold operandCount
  rw [BitVec.toNat_and]
  exact lt_of_le_of_lt Nat.and_le_right (by decide)

/-- The advance does not wrap (10_state.md R31). -/
theorem State.toNat_pc_advance (s : State) (op : Byte) (h : s.pc.toNat ≤ 255) :
    (s.advance op).pc.toNat = s.pc.toNat + 1 + operandCount op := by
  have := operandCount_lt op
  simp [BitVec.toNat_add]
  omega

theorem State.fetchOpcode_of_le {s : State} (h : s.pc.toNat ≤ 255) : s.fetchOpcode = .ok (s.mem.read s.pc.toNat) :=
  s.memRead_of_lt (by omega)

theorem State.fetchOpcode_of_gt {s : State} (h : 255 < s.pc.toNat) :
    s.fetchOpcode = .error ⟨.outOfBounds, some s.pc.toNat⟩ :=
  s.memRead_of_ge h

theorem step_of_not_running {s : State} (h : s.run ≠ .running) : step s = .next s := by
  unfold step cycle
  split <;> simp_all

theorem step_of_running {s : State} (h : s.run = .running) : step s = runningStep s := by
  simp [step, cycle, h]

/-- What a step can do: nothing in a terminal state; OutOfBounds at the opcode fetch; a fault of the lookup or of an operand
fetch, pc advanced; or the execution of the fetched instruction, pc advanced. -/
theorem step_cases (s : State) :
    (s.run ≠ .running ∧ step s = .next s) ∨
    (s.run = .running ∧ 255 < s.pc.toNat ∧ step s = .next (s.raise ⟨.outOfBounds, some s.pc.toNat⟩)) ∨
    (s.run = .running ∧ s.pc.toNat ≤ 255 ∧ ∃ op, op = s.mem.read s.pc.toNat ∧
      ((∃ e, (s.advance op).fetchInstr s.pc.toNat op = .error e ∧ step s = .next ((s.advance op).raise e)) ∨
       (∃ i, (s.advance op).fetchInstr s.pc.toNat op = .ok i ∧ step s = exec i (s.advance op)))) := by
  by_cases hr : s.run = .running
  · rw [step_of_running hr, runningStep]
    by_cases hp : s.pc.toNat ≤ 255
    · refine .inr (.inr ⟨hr, hp, _, rfl, ?_⟩)
      rw [State.fetchOpcode_of_le hp]
      simp only
      cases (s.advance (s.mem.read s.pc.toNat)).fetchInstr s.pc.toNat (s.mem.read s.pc.toNat) with
      | error e => exact .inl ⟨e, rfl, rfl⟩
      | ok i => exact .inr ⟨i, rfl, rfl⟩
    · refine .inr (.inl ⟨hr, by omega, ?_⟩)
      rw [State.fetchOpcode_of_gt (by omega)]
  · exact .inl ⟨hr, step_of_not_running hr⟩

end Sys2Proof.Machine
end

