-- ==== Sys2Proof/Tests/Slice0.lean ====
section
/-! SUPPORT. The model's own tests: the WellFormed smoke test, words written out from 30_encoding.md R88, single steps from the vectors
of 95_test_vectors.md (the docstring names the vector), and a witness for the hypotheses of each statement. -/

namespace Sys2Proof.Tests

open Machine

/-! ### Helpers -/

/-- A running machine at address base with code there, some registers and cells set, and the flags. All else is as after reset. -/
def start (base : Nat) (code : List Byte) (regs : List (RegIdx × Byte)) (cells : List (Nat × Byte)) (fl : Byte) : State :=
  let m := cells.foldl (fun m c => Memory.write m c.1 c.2) []
  let s := State.resetWith (m.writeBytes base code)
  regs.foldl (fun s r => s.setX r.1 r.2) ((s.setPc (BitVec.ofNat 9 base)).setFl fl)

/-- The decoded instruction and the bytes left over. -/
def decoded (bs : List Byte) : Option (Instr × List Byte) :=
  (decode bs).toOption

/-! ### WellFormed -/

theorem test_illformed_one_operand :
    [Instr.ldi 8 0, .prn 8, .pra 8, .inc 8, .dec 8, .not 8, .push 8, .pop 8, .call 8, .jmp 8, .jeq 8, .jne 8, .jgt 8, .jlt 8,
      .jge 8, .jle 255].all (fun i => !i.wellFormed) = true := by decide

theorem test_illformed_first_operand :
    [Instr.add 8 0, .sub 8 0, .mul 8 0, .div 8 0, .mod 8 0, .and 8 0, .or 8 0, .xor 8 0, .shl 8 0, .shr 8 0, .cmp 8 0, .st 8 0,
      .ld 255 0].all (fun i => !i.wellFormed) = true := by decide

theorem test_illformed_second_operand :
    [Instr.add 0 8, .sub 0 8, .mul 0 8, .div 0 8, .mod 0 8, .and 0 8, .or 0 8, .xor 0 8, .shl 0 8, .shr 0 8, .cmp 0 8, .st 0 8,
      .ld 0 255].all (fun i => !i.wellFormed) = true := by decide

/-- LDI's immediate and INT's operand are not checked (30_encoding.md R86, R87). -/
theorem test_wellformed_unchecked_operands :
    [Instr.ldi 7 255, .int 255, .add 7 7, .pop 7, .ret, .nop, .hlt, .iret].all (fun i => i.wellFormed) = true := by decide

/-! ### Decoding: every constructor, its word written out from 30_encoding.md R88 -/

theorem test_decode_load_and_output :
    decoded [0b10000010, 0x00, 0x08] = some (.ldi 0 8, []) ∧ decoded [0b01000111, 0x00] = some (.prn 0, []) ∧
      decoded [0b01001000, 0x01] = some (.pra 1, []) := by decide

theorem test_decode_arithmetic :
    decoded [0b10100000, 1, 2] = some (.add 1 2, []) ∧ decoded [0b10100001, 1, 2] = some (.sub 1 2, []) ∧
      decoded [0b10100010, 1, 2] = some (.mul 1 2, []) ∧ decoded [0b10100011, 1, 2] = some (.div 1 2, []) ∧
      decoded [0b10100100, 1, 2] = some (.mod 1 2, []) ∧ decoded [0b01100101, 1] = some (.inc 1, []) ∧
      decoded [0b01100110, 1] = some (.dec 1, []) := by decide

theorem test_decode_logic_shift :
    decoded [0b10101000, 1, 2] = some (.and 1 2, []) ∧ decoded [0b10101010, 1, 2] = some (.or 1 2, []) ∧
      decoded [0b10101011, 1, 2] = some (.xor 1 2, []) ∧ decoded [0b01101001, 1] = some (.not 1, []) ∧
      decoded [0b10101100, 1, 2] = some (.shl 1 2, []) ∧ decoded [0b10101101, 1, 2] = some (.shr 1 2, []) := by decide

theorem test_decode_compare_stack_memory :
    decoded [0b10100111, 1, 2] = some (.cmp 1 2, []) ∧ decoded [0b01000101, 1] = some (.push 1, []) ∧
      decoded [0b01000110, 1] = some (.pop 1, []) ∧ decoded [0b10000100, 1, 2] = some (.st 1 2, []) ∧
      decoded [0b10000011, 1, 2] = some (.ld 1 2, []) := by decide

theorem test_decode_control :
    decoded [0b01010000, 1] = some (.call 1, []) ∧ decoded [0b00010001] = some (.ret, []) ∧
      decoded [0b01010100, 1] = some (.jmp 1, []) ∧ decoded [0b01010101, 1] = some (.jeq 1, []) ∧
      decoded [0b01010110, 1] = some (.jne 1, []) ∧ decoded [0b01010111, 1] = some (.jgt 1, []) ∧
      decoded [0b01011000, 1] = some (.jlt 1, []) ∧ decoded [0b01011001, 1] = some (.jle 1, []) ∧
      decoded [0b01011010, 1] = some (.jge 1, []) := by decide

theorem test_decode_system :
    decoded [0b00000000] = some (.nop, []) ∧ decoded [0b00000001] = some (.hlt, []) ∧
      decoded [0b01010010, 0xFF] = some (.int 0xFF, []) ∧ decoded [0b00010011] = some (.iret, []) := by decide

/-- 30_encoding.md R91: no opcode; and a first byte whose operands do not follow. -/
theorem test_decode_refuses :
    decode [0x02] = .error (.illegalOpcode 0x02) ∧ decode [0xFF, 0, 0] = .error (.illegalOpcode 0xFF) ∧
      decode [] = .error .noByte ∧ decode [0x82, 0] = .error (.missingOperand .ldi) ∧
      decode [0x47] = .error (.missingOperand .prn) := ⟨rfl, rfl, rfl, rfl, rfl⟩

/-- The numbering of spec/opcode_table.json: the first byte is bits 7 to 0. ADD with A = 1 and B = 2. -/
theorem test_table_word :
    decodeTableWord 24 0x0201A0 = some (.add 1 2) ∧ decodeTableWord 8 0x00 = some .nop ∧
      decodeTableWord 8 0xA0 = some (.add 0 0) ∧ decodeTableWord 8 0xFF = none := by decide

theorem test_withFetchWord_runs_it :
    (State.reset.withFetchWord 24 0xFF0382).afterStep.x 3 = 0xFF ∧
      (State.reset.withFetchWord 8 0x01).afterStep.run = .halted := by decide

/-- Where three bytes do not fit, the word goes to address 0; a machine that has ended is made to run. -/
theorem test_withFetchWord_at_the_top :
    (((State.reset.setPc 254).setRun .halted).withFetchWord 24 0xFF0382).afterStep.x 3 = 0xFF := by decide

/-! ### One step: LDI, PRN, PRA -/

/-- V1. -/
theorem test_ldi_largest : (start 0 [0x82, 3, 0xFF] [] [] 0).afterStep.x 3 = 0xFF ∧ (start 0 [0x82, 3, 0xFF] [] [] 0).afterStep.pc = 3 := by
  decide

/-- V3. -/
theorem test_ldi_bad_index : (start 0 [0x82, 8, 5] [] [] 0).afterStep.run = .faulted .invalidRegister := by decide

/-- V4. -/
theorem test_prn_is_unsigned : (start 0 [0x47, 2] [(2, 0xC8)] [] 0).afterStep.events = [.num 200] := by decide

/-- V7. -/
theorem test_prn_bad_index :
    (start 0 [0x47, 9] [] [] 0).afterStep.run = .faulted .invalidRegister ∧ (start 0 [0x47, 9] [] [] 0).afterStep.events = [] := by
  decide

/-- V5. -/
theorem test_pra_letter : (start 0 [0x48, 1] [(1, 0x48)] [] 0).afterStep.events = [.chr 72] := by decide

/-- V6. -/
theorem test_pra_above_127 : (start 0 [0x48, 1] [(1, 0xFF)] [] 0).afterStep.events = [.chr 255] := by decide

/-! ### One step: arithmetic -/

/-- V10. -/
theorem test_add_wraps : (start 0 [0xA0, 0, 1] [(0, 0xC8), (1, 0x64)] [] 0).afterStep.x 0 = 0x2C := by decide

/-- V28: both operands bad. -/
theorem test_add_bad_indices : (start 0 [0xA0, 8, 9] [] [] 0).afterStep.run = .faulted .invalidRegister := by decide

/-- V12. -/
theorem test_sub_wraps : (start 0 [0xA1, 0, 1] [(0, 3), (1, 5)] [] 0).afterStep.x 0 = 0xFE := by decide

/-- V13. -/
theorem test_sub_itself : (start 0 [0xA1, 2, 2] [(2, 0x77)] [] 0).afterStep.x 2 = 0 := by decide

/-- V15. -/
theorem test_mul_low_byte : (start 0 [0xA2, 0, 1] [(0, 0xFF), (1, 0xFF)] [] 0).afterStep.x 0 = 1 := by decide

/-- V17. -/
theorem test_div_unsigned : (start 0 [0xA3, 0, 1] [(0, 0xC8), (1, 3)] [] 0).afterStep.x 0 = 0x42 := by decide

/-- V18. -/
theorem test_div_by_zero :
    (start 0 [0xA3, 0, 1] [(0, 7)] [] 0).afterStep.run = .faulted .divisionByZero ∧
      (start 0 [0xA3, 0, 1] [(0, 7)] [] 0).afterStep.pc = 3 := by decide

/-- V23. -/
theorem test_mod : (start 0 [0xA4, 0, 1] [(0, 0xFF), (1, 0x10)] [] 0).afterStep.x 0 = 0x0F := by decide

/-- V22. -/
theorem test_mod_by_zero : (start 0 [0xA4, 0, 1] [(0, 10)] [] 0).afterStep.run = .faulted .divisionByZero := by decide

/-- V24. -/
theorem test_inc_wraps : (start 0 [0x65, 0] [(0, 0xFF)] [] 0).afterStep.x 0 = 0 := by decide

/-- V25. -/
theorem test_dec_wraps : (start 0 [0x66, 0] [] [] 0).afterStep.x 0 = 0xFF := by decide

/-- V26. -/
theorem test_dec_sp : (start 0 [0x66, 7] [] [] 0).afterStep.x 7 = 0xF3 := by decide

/-! ### One step: logic and shifts -/

/-- V30. -/
theorem test_and : (start 0 [0xA8, 0, 1] [(0, 0xCC), (1, 0xAA)] [] 0).afterStep.x 0 = 0x88 := by decide

/-- V31. -/
theorem test_or : (start 0 [0xAA, 0, 1] [(0, 0xCC), (1, 0xAA)] [] 0).afterStep.x 0 = 0xEE := by decide

/-- V32. -/
theorem test_xor : (start 0 [0xAB, 0, 1] [(0, 0xCC), (1, 0xAA)] [] 0).afterStep.x 0 = 0x66 := by decide

/-- V34. -/
theorem test_not : (start 0 [0x69, 0] [(0, 0x0F)] [] 0).afterStep.x 0 = 0xF0 := by decide

/-- V36. -/
theorem test_shl_drops_bit_7 : (start 0 [0xAC, 0, 1] [(0, 0x81), (1, 1)] [] 0).afterStep.x 0 = 2 := by decide

/-- V39. -/
theorem test_shl_amount_unmasked : (start 0 [0xAC, 0, 1] [(0, 0xFF), (1, 0xFF)] [] 0).afterStep.x 0 = 0 := by decide

/-- V41. -/
theorem test_shr_is_logical : (start 0 [0xAD, 0, 1] [(0, 0x81), (1, 1)] [] 0).afterStep.x 0 = 0x40 := by decide

/-- V43. -/
theorem test_shr_by_eight : (start 0 [0xAD, 0, 1] [(0, 0xFF), (1, 8)] [] 0).afterStep.x 0 = 0 := by decide

/-! ### One step: CMP -/

/-- V54. -/
theorem test_cmp_replaces_flags : (start 0 [0xA7, 0, 1] [(0, 1), (1, 2)] [] 1).afterStep.fl = 4 := by decide

/-- V53. -/
theorem test_cmp_unsigned : (start 0 [0xA7, 0, 1] [(0, 0xFF), (1, 1)] [] 0).afterStep.fl = 2 := by decide

/-! ### One step: the stack -/

/-- V63. -/
theorem test_push_to_address_zero :
    (start 0x10 [0x45, 0] [(0, 0x99), (7, 1)] [] 0).afterStep.mem.read 0 = 0x99 ∧
      (start 0x10 [0x45, 0] [(0, 0x99), (7, 1)] [] 0).afterStep.x 7 = 0 := by decide

/-- V67. -/
theorem test_push_r7 :
    (start 0 [0x45, 7] [] [] 0).afterStep.mem.read 0xF3 = 0xF3 ∧ (start 0 [0x45, 7] [] [] 0).afterStep.x 7 = 0xF3 := by decide

/-- V65. -/
theorem test_pop_last :
    (start 0 [0x46, 0] [(7, 0xFE)] [(0xFE, 0x12)] 0).afterStep.x 0 = 0x12 ∧
      (start 0 [0x46, 0] [(7, 0xFE)] [(0xFE, 0x12)] 0).afterStep.x 7 = 0xFF := by decide

/-- V70: at SP = 255, where a POP to another register faults (V64). -/
theorem test_pop_r7 : (start 0 [0x46, 7] [(7, 0xFF)] [(0xFF, 0x10)] 0).afterStep.x 7 = 0x11 := by decide

/-! ### One step: control transfer -/

/-- V105. -/
theorem test_call_at_254 :
    (start 0xFE [0x50, 1] [(1, 0x20)] [(0xF3, 0x77)] 0).afterStep.mem.read 0xF3 = 0 ∧
      (start 0xFE [0x50, 1] [(1, 0x20)] [(0xF3, 0x77)] 0).afterStep.pc = 0x20 := by decide

/-- V106. -/
theorem test_call_r7 :
    (start 0x10 [0x50, 7] [] [] 0).afterStep.pc = 0xF3 ∧ (start 0x10 [0x50, 7] [] [] 0).afterStep.mem.read 0xF3 = 0x12 := by decide

/-- V101. -/
theorem test_ret :
    (start 6 [0x11] [(7, 0xF3)] [(0xF3, 5)] 0).afterStep.pc = 5 ∧ (start 6 [0x11] [(7, 0xF3)] [(0xF3, 5)] 0).afterStep.x 7 = 0xF4 := by
  decide

/-- V103. -/
theorem test_ret_underflow :
    (start 6 [0x11] [(7, 0xFF)] [] 0).afterStep.run = .faulted .stackUnderflow ∧ (start 6 [0x11] [(7, 0xFF)] [] 0).afterStep.pc = 7 := by
  decide

/-- V80. -/
theorem test_jmp : (start 0 [0x54, 2] [(2, 0x10)] [] 0).afterStep.pc = 0x10 := by decide

/-- The pc after a conditional jump at 0x10 with R2 = 0x20, for fl = 0, 1, 2, 4. -/
def jumpTargets (op : Byte) : List PcWord :=
  [0, 1, 2, 4].map fun fl => (start 0x10 [op, 2] [(2, 0x20)] [] fl).afterStep.pc

/-- V90. -/
theorem test_jeq : jumpTargets 0x55 = [0x12, 0x20, 0x12, 0x12] := by decide

/-- V96. -/
theorem test_jeq_untaken_checks_operand :
    (start 0x10 [0x55, 9] [] [] 0).afterStep.run = .faulted .invalidRegister ∧ (start 0x10 [0x55, 9] [] [] 0).afterStep.pc = 0x12 := by
  decide

/-- V91. -/
theorem test_jne : jumpTargets 0x56 = [0x20, 0x12, 0x20, 0x20] := by decide

/-- V92. -/
theorem test_jgt : jumpTargets 0x57 = [0x12, 0x12, 0x20, 0x12] := by decide

/-- V93. -/
theorem test_jlt : jumpTargets 0x58 = [0x12, 0x12, 0x12, 0x20] := by decide

/-- V94. -/
theorem test_jle : jumpTargets 0x59 = [0x12, 0x20, 0x12, 0x20] := by decide

/-- V95. -/
theorem test_jge : jumpTargets 0x5A = [0x12, 0x20, 0x20, 0x12] := by decide

/-! ### One step: memory access -/

/-- V110. -/
theorem test_st : (start 0 [0x84, 0, 1] [(0, 0x80), (1, 0x55)] [] 0).afterStep.mem.read 0x80 = 0x55 := by decide

/-- V114: the next step fetches the stored byte, HLT. -/
theorem test_st_over_next_instruction :
    (start 0 [0x84, 0, 1] [(0, 3), (1, 1)] [] 0).afterStep.mem.read 3 = 0x01 := by decide

/-- V113. -/
theorem test_ld_one_register : (start 0 [0x83, 0, 0] [(0, 0x80)] [(0x80, 0x66)] 0).afterStep.x 0 = 0x66 := by decide

/-- V115. -/
theorem test_ld_own_opcode : (start 0 [0x83, 2, 1] [] [] 0).afterStep.x 2 = 0x83 := by decide

/-! ### One step: system -/

/-- V137. -/
theorem test_nop_in_last_cell : (start 255 [0x00] [] [] 0).afterStep.pc = 256 ∧ (start 255 [0x00] [] [] 0).afterStep.run = .running := by
  decide

/-- V139. -/
theorem test_hlt_in_last_cell : (start 255 [0x01] [] [] 0).afterStep.pc = 256 ∧ (start 255 [0x01] [] [] 0).afterStep.run = .halted := by
  decide

/-- V123. -/
theorem test_int_operand_unchecked : (start 0 [0x52, 0xFF] [] [] 0).afterStep = (start 0 [0x52, 0xFF] [] [] 0).setPc 2 := by decide

/-- V124. -/
theorem test_iret_pops_nothing : (start 0 [0x13] [(7, 0xF0)] [] 0).afterStep = (start 0 [0x13] [(7, 0xF0)] [] 0).setPc 1 := by decide

/-! ### One step: faults of the fetch and the lookup -/

/-- V136. -/
theorem test_illegal_at_255 :
    (start 255 [0xC0] [] [] 0).afterStep.pc = 259 ∧ (start 255 [0xC0] [] [] 0).afterStep.run = .faulted .illegalInstruction := by decide

/-- V142. -/
theorem test_operand_out_of_bounds_first :
    (start 254 [0x82, 9] [] [] 0).afterStep.pc = 257 ∧ (start 254 [0x82, 9] [] [] 0).afterStep.run = .faulted .outOfBounds := by decide

/-- V138. -/
theorem test_fetch_at_256 :
    (State.reset.setPc 256).afterStep.pc = 256 ∧ (State.reset.setPc 256).afterStep.run = .faulted .outOfBounds := by decide

/-! ### Witnesses: the hypotheses of each statement can be met, clause by clause and where the clauses meet -/

/-- ADD r7, r6 at 253, the last place where it fits; memory also holds HLT at 0. -/
def addAtTop : State := start 253 [0xA0, 7, 6] [(6, 1)] [(0, 1)] 2

/-- ResetState, ResetMeetsInvariant: a register other than 7; a MEM_INIT that is not empty; a load that succeeds. -/
theorem witness_reset : (6 : RegIdx) ≠ 7 ∧ Memory.wf [(0, 1), (255, 2)] ∧ ∃ t, boot [(0, 1), (255, 2)] [0x01] = .ok t :=
  ⟨by decide, by decide, _, rfl⟩

/-- StepKeepsInvariant, and the statements with a step that answers a next state: StepRunsDecodedInstruction's run, EventsOnlyByOutput,
HaltedOnlyByHalt, PcAtMost256UnlessFaulted, MemoryWrittenOnlyByArbiterWrite. -/
theorem witness_step : Inv addAtTop ∧ addAtTop.run = .running ∧ step addAtTop = .next addAtTop.afterStep ∧
    addAtTop.afterStep.run = .running ∧ addAtTop.afterStep.pc.toNat = 256 :=
  ⟨by decide, by decide, rfl, by decide, by decide⟩

/-- StepInFull: a terminal state; pc 256, the first that cannot be fetched; an illegal byte at 255; one operand at 255; two operands at
254; two operands at 253, which fit. -/
theorem witness_step_in_full :
    (State.reset.setRun .halted).run ≠ .running ∧ (State.reset.setPc 256).run = .running ∧
      255 < (State.reset.setPc 256).pc.toNat ∧
      (Opcode.all.all fun o => decide (o.byte ≠ (start 255 [0xC0] [] [] 0).mem.read 255)) = true ∧
      Opcode.prn.byte = (start 255 [0x47] [] [] 0).mem.read 255 ∧ (0x47 : Byte).toNat / 64 = 1 ∧ 255 < 255 + 1 ∧
      Opcode.ldi.byte = (start 254 [0x82, 9] [] [] 0).mem.read 254 ∧ (0x82 : Byte).toNat / 64 = 2 ∧ 255 < 254 + 2 ∧
      Opcode.add.byte = addAtTop.mem.read 253 ∧ 253 + (0xA0 : Byte).toNat / 64 ≤ 255 := by decide

/-- StepRunsDecodedInstruction: the three bytes at 253 decode, and none are left. -/
theorem witness_step_runs_decoded : addAtTop.run = .running ∧ decode addAtTop.codeBytes = .ok (.add 7 6, []) :=
  ⟨by decide, rfl⟩

/-- TerminalStatesTakeNoStep, RunIsRepeatedStep. -/
theorem witness_ended : Ended (State.reset.setRun .halted) ∧ Ended (State.reset.setRun (.faulted .stackOverflow)) := by decide

/-- IllegalOpcodeFaults: the byte 0xFF at 0 and 0xC0 at 255. -/
theorem witness_illegal_opcode :
    (start 0 [0xFF] [] [] 0).run = .running ∧ (start 255 [0xC0] [] [] 0).pc.toNat ≤ 255 ∧
      Opcode.ofByte ((start 255 [0xC0] [] [] 0).mem.read 255) = none ∧ 0xC0 ≤ (0xC0 : Byte).toNat := by decide

/-- FaultsLeaveStateButPc: a fault of the fetch at 256, and one after the advance at 255. -/
theorem witness_faults :
    (step (State.reset.setPc 256) = .next (State.reset.setPc 256).afterStep ∧ HasFaulted (State.reset.setPc 256).afterStep) ∧
      (step (start 255 [0xC0] [] [] 0) = .next (start 255 [0xC0] [] [] 0).afterStep ∧
        HasFaulted (start 255 [0xC0] [] [] 0).afterStep) :=
  ⟨⟨rfl, .outOfBounds, by decide⟩, rfl, .illegalInstruction, by decide⟩

/-- InvalidRegisterExactlyOnBadOperand: the boundary bytes 8 and 7. -/
theorem witness_bad_operand :
    State.reset.run ≠ .faulted .invalidRegister ∧ (∃ o ∈ (Instr.add 0 8).regOperands, 7 < o.toNat) ∧
      ¬ ∃ o ∈ (Instr.add 0 7).regOperands, 7 < o.toNat := by decide

/-- PcAtMost256UnlessFaulted: the step leaves a state that has not faulted. -/
theorem witness_safe : Safe addAtTop.afterStep := by
  rintro ⟨k, h⟩
  exact absurd h (by cases k <;> decide)

/-- FlagsWrittenOnlyByCompare: a step and an execution that change fl. -/
theorem witness_flags_written :
    (exec (.cmp 0 1) (start 0 [] [] [] 2) = .next ((start 0 [] [] [] 2).setFl 1) ∧ ((start 0 [] [] [] 2).setFl 1).fl ≠ 2) ∧
      (start 0 [0xA7, 0, 1] [] [] 2).afterStep.fl ≠ (start 0 [0xA7, 0, 1] [] [] 2).fl :=
  ⟨⟨rfl, by decide⟩, by decide⟩

/-- FlagsReadOnlyByConditionalJumps, RegistersWritten, RegistersRead: an instruction that answers a next state, with a register that it
neither reads nor writes; and JGE untaken before the first CMP. -/
theorem witness_register_use :
    exec (.ldi 3 9) State.reset = .next (State.reset.setX 3 9) ∧ (∀ o ∈ (Instr.ldi 3 9).regsWritten, o.toNat ≠ (2 : RegIdx).val) ∧
      (∀ o ∈ (Instr.ldi 3 9).regsRead, o.toNat ≠ (3 : RegIdx).val) ∧ exec (.jge 2) State.reset = .next State.reset ∧
      State.reset.fl.getLsbD 1 = false ∧ State.reset.fl.getLsbD 0 = false :=
  ⟨rfl, by decide, by decide, rfl, by decide, by decide⟩

/-- A PUSH at address 0: one read each of the opcode and the operand byte, one write. -/
def pushAtZero : State := start 0 [0x45, 0] [(0, 0x2A)] [] 0

/-- MemoryWrittenOnlyByArbiterWrite, StepDependsOnlyOnArbiterReads: the accesses of a PUSH; a cell that its write does not name; another
memory that agrees on the cells read and not elsewhere. -/
theorem witness_arbiter :
    pushAtZero.accesses = [⟨.opcodeFetch, false, 0⟩, ⟨.operandFetch, false, 1⟩, ⟨.dataAccess, true, 0xF3⟩] ∧
      (∀ acc ∈ pushAtZero.accesses, acc.isWrite = true → acc.addr ≠ 0xF4) ∧
      (∀ acc ∈ pushAtZero.accesses, acc.isWrite = false →
        (pushAtZero.mem.write 0x80 9).read acc.addr = pushAtZero.mem.read acc.addr) ∧
      pushAtZero.mem.write 0x80 9 ≠ pushAtZero.mem ∧ step pushAtZero = .next pushAtZero.afterStep :=
  ⟨by decide, by decide, by decide, by decide, rfl⟩

/-- EncodeOfDecode: bytes that decode, with two left over. -/
theorem witness_decode : decode [0x47, 2, 0x01, 0xFF] = .ok (.prn 2, [0x01, 0xFF]) := rfl

/-- The rules of one instruction each (LdiLoadsImmediate to ShiftsAreLogicalAndUnmasked, CmpSetsExactlyOneFlag, JmpSetsPcToRegister,
StWritesOneCell, LdReadsOneCell): the operand bytes 7, which names a register, and 8, which does not; and EncodedAs' code at pc. -/
theorem witness_operands : Names 7 7 ∧ Names 0 0 ∧ 7 < (8 : Byte).toNat ∧ addAtTop.run = .running ∧ CodeAt addAtTop [0xA0, 7, 6] := by
  decide

/-- DivIsFloorOrDivisionByZero, ModIsRemainderOrDivisionByZero: a divisor of 1 and one of 0. -/
theorem witness_divisor : addAtTop.x 6 ≠ 0 ∧ addAtTop.x 5 = 0 := by decide

/-- CmpSetsExactlyOneFlag: equal, greater, less. -/
theorem witness_compare :
    (addAtTop.x 6).toNat = (addAtTop.x 6).toNat ∧ (addAtTop.x 6).toNat > (addAtTop.x 0).toNat ∧
      (addAtTop.x 0).toNat < (addAtTop.x 6).toNat := by decide

/-- PraEmitsCharacter, ConditionsAfterCompare, ShiftsAreLogicalAndUnmasked: the last ASCII code; the four flag values; the amounts 8 and 0. -/
theorem witness_values :
    (127 : Byte).toNat ≤ 127 ∧ LegalFlags 0 ∧ LegalFlags 1 ∧ LegalFlags 2 ∧ LegalFlags 4 ∧ 8 ≤ (8 : Byte).toNat := by decide

/-- PushDecrementsThenWrites, CallPushesReturnAddressAndJumps: SP at 1, the last that pushes, and at 0. -/
theorem witness_push : (start 0 [] [(7, 1)] [] 0).x 7 ≠ 0 ∧ (start 0 [] [(7, 0)] [] 0).x 7 = 0 := by decide

/-- PopReadsThenIncrements, RetPopsPc: SP at 254 and at 255; for POP r7, a byte 254 and a byte 255 at SP. -/
theorem witness_pop :
    (6 : RegIdx) ≠ 7 ∧ (start 0 [] [(7, 254)] [] 0).x 7 ≠ 255 ∧ (start 0 [] [(7, 255)] [] 0).x 7 = 255 ∧
      (start 0 [] [(7, 255)] [(255, 254)] 0).mem.read ((start 0 [] [(7, 255)] [(255, 254)] 0).x 7).toNat ≠ 255 ∧
      (start 0 [] [(7, 254)] [(254, 255)] 0).mem.read ((start 0 [] [(7, 254)] [(254, 255)] 0).x 7).toNat = 255 := by decide

/-- PUSH and POP at 252, with SP at 1. -/
def pushPop (A B : Byte) : State := start 252 [0x45, A, 0x46, B] [(7, 1), (0, 0x2A)] [] 0

/-- PushThenPop: the same register, register 7 itself, and two different ones. -/
theorem witness_push_then_pop :
    (pushPop 7 7).run = .running ∧ CodeAt (pushPop 7 7) [0x45, 7, 0x46, 7] ∧ CodeAt (pushPop 0 6) [0x45, 0, 0x46, 6] ∧
      (pushPop 7 7).x 7 ≠ 0 ∧ ((pushPop 7 7).x 7).toNat - 1 ≠ (pushPop 7 7).pc.toNat + 2 ∧
      ((pushPop 7 7).x 7).toNat - 1 ≠ (pushPop 7 7).pc.toNat + 3 ∧ (0 : RegIdx) ≠ 7 ∧ (6 : RegIdx) ≠ 7 := by decide

/-- A CALL at 253, the last place that returns to its next instruction, to a RET at 0x20. -/
def callRet : State := start 253 [0x50, 1] [(1, 0x20)] [(0x20, 0x11)] 0

/-- CallThenReturn. -/
theorem witness_call_then_return :
    callRet.run = .running ∧ CodeAt callRet [0x50, 1] ∧ callRet.pc.toNat ≤ 253 ∧ Names 1 1 ∧ (1 : RegIdx) ≠ 7 ∧ callRet.x 7 ≠ 0 ∧
      (callRet.x 1).toNat ≠ (callRet.x 7).toNat - 1 ∧ callRet.mem.read (callRet.x 1).toNat = 0x11 := by decide

/-- ConditionalJumpsTestFlags: each condition met and not met. -/
theorem witness_conditions :
    (1 : Byte).getLsbD 0 = true ∧ (0 : Byte).getLsbD 0 = false ∧ (2 : Byte).getLsbD 1 = true ∧ (0 : Byte).getLsbD 1 = false ∧
      (4 : Byte).getLsbD 2 = true ∧ (0 : Byte).getLsbD 2 = false := by decide

/-- ST at 252, so that the next instruction stands at 255: it stores to 255 and to 254. -/
def storeNext (address : Byte) : State := start 252 [0x84, 0, 1] [(0, address), (1, 1)] [] 0

/-- NextFetchSeesStore: both cases of its conclusion. -/
theorem witness_next_fetch :
    (storeNext 255).run = .running ∧ CodeAt (storeNext 255) [0x84, 0, 1] ∧ (storeNext 255).pc.toNat + 3 ≤ 255 ∧
      ((storeNext 255).x 0).toNat = 255 ∧ CodeAt (storeNext 254) [0x84, 0, 1] ∧ ((storeNext 254).x 0).toNat ≠ 255 := by decide

/-- LoadCopiesProgramVerbatim: programs of 256 and 257 bytes. -/
theorem witness_load : (∃ p : List Byte, p.length = 256 ∧ p.length ≤ 256) ∧ ∃ p : List Byte, 256 < p.length :=
  ⟨⟨List.replicate 256 1, List.length_replicate, List.length_replicate.le⟩,
    List.replicate 257 1, by rw [List.length_replicate]; decide⟩

/-- HostChangesCoreOnlyByItsMoves: a reset, a load, a step, a run and a snapshot are moves; a second load is none. -/
theorem witness_host :
    (hostAct [] ⟨State.reset, .loaded⟩ .reset).isSome = true ∧ (hostAct [] ⟨State.reset, .fresh⟩ (.load [1])).isSome = true ∧
      (hostAct [] ⟨State.reset, .loaded⟩ .step).isSome = true ∧ (hostAct [] ⟨State.reset, .loaded⟩ (.run 2)).isSome = true ∧
      (hostAct [] ⟨State.reset, .spoiled⟩ .snapshot).isSome = true ∧
      hostAct [] ⟨State.reset, .loaded⟩ (.load [1]) = none := ⟨rfl, rfl, rfl, rfl, rfl, rfl⟩

/-- HostChangesCoreOnlyByItsMoves, where its two load clauses meet: 256 bytes are loaded and 257 are refused, both by a move. -/
theorem witness_host_load :
    (∃ p : List Byte, p.length = 256 ∧
      hostAct [] ⟨State.reset, .fresh⟩ (.load p) = some (⟨State.reset.setMem (State.reset.mem.writeBytes 0 p), .loaded⟩, .done)) ∧
    ∃ p : List Byte, p.length = 257 ∧
      hostAct [] ⟨State.reset, .fresh⟩ (.load p) = some (⟨State.reset, .spoiled⟩, .error .outOfBounds) := by
  refine ⟨⟨List.replicate 256 1, List.length_replicate, ?_⟩, List.replicate 257 1, List.length_replicate, ?_⟩
  · simp only [hostAct, State.load, List.length_replicate, le_refl, if_true]
  · simp only [hostAct, State.load, List.length_replicate, if_neg (show ¬ 257 ≤ Config.memSize by decide)]

/-- MemoryIsCanonical: two canonical memories built in different orders read alike. -/
theorem witness_canonical :
    Memory.wf (Memory.write (Memory.write [] 3 1) 2 5) ∧ Memory.wf (Memory.write (Memory.write [] 2 5) 3 1) ∧
      Memory.write (Memory.write [] 3 1) 2 5 = Memory.write (Memory.write [] 2 5) 3 1 := by decide

/-! ### The host's side -/

/-- The text of events (41 R131, R132), and the fault codes of 60_exceptions.md R241. -/
theorem test_event_text_and_codes :
    (Event.num 8).text = some "8" ∧ (Event.chr 72).text = some "H" ∧ (Event.chr 128).text = none ∧
      ([Fault.outOfBounds, .invalidRegister, .illegalInstruction, .divisionByZero, .stackUnderflow, .stackOverflow].map
        fun k => (RunState.faulted k).code) = [1, 2, 3, 4, 5, 6] :=
  ⟨rfl, rfl, rfl, rfl⟩

/-- The spelling of 30_encoding.md R96. -/
theorem test_asm : (Instr.ldi 0 8).asm = some "LDI r0, 8" ∧ (Instr.st 4 0).asm = some "ST r4, r0" ∧ (Instr.prn 8).asm = none ∧
    Instr.ret.asm = some "RET" := by decide

end Sys2Proof.Tests
end

section
/-! PROOFS. The canonical form of the memory list fixes the list by what it reads (10_state.md R42). -/

namespace Sys2Proof.Machine

/-- A canonical list reads, at the address of each of its cells, that cell. -/
theorem Memory.read_of_mem {m : Memory} (h : m.wf) {c : Host.Cell} (hc : c ∈ m) : m.read c.1 = c.2 := by
  obtain ⟨hp, -⟩ := h
  induction m with
  | nil => cases hc
  | cons d m ih =>
    obtain ⟨hd, hp⟩ := List.pairwise_cons.mp hp
    rw [Memory.read_cons]
    rcases List.mem_cons.mp hc with rfl | hc
    · exact if_pos rfl
    · rw [if_neg (hd c hc).ne, ih hc hp]

/-- An address that does not read as unlisted is listed, with the byte it reads as. -/
theorem Memory.mem_of_read_ne_zero {m : Memory} {a : Nat} (h : m.read a ≠ 0) : (a, m.read a) ∈ m := by
  induction m with
  | nil => exact absurd (Memory.read_nil a) h
  | cons d m ih =>
    rw [Memory.read_cons] at h ⊢
    split at h <;> rename_i hd
    · rw [if_pos hd, ← hd]
      exact List.mem_cons_self
    · rw [if_neg hd]
      exact List.mem_cons_of_mem d (ih h)

/-- The cells of a canonical list are the addresses below 256 that do not read as unlisted, each with what it reads as. -/
theorem Memory.mem_iff_read {m : Memory} (h : m.wf) (c : Host.Cell) :
    c ∈ m ↔ c.1 < Config.memSize ∧ m.read c.1 = c.2 ∧ c.2 ≠ 0 := by
  refine ⟨fun hc => ⟨(h.2 c hc).1, Memory.read_of_mem h hc, (h.2 c hc).2⟩, fun ⟨_, hread, hne⟩ => ?_⟩
  have hmem := Memory.mem_of_read_ne_zero (m := m) (a := c.1) (hread ▸ hne)
  rwa [hread] at hmem

theorem Memory.eq_of_read_eq {m n : Memory} (hm : m.wf) (hn : n.wf)
    (h : ∀ a, a < Config.memSize → m.read a = n.read a) : m = n := by
  have hmem : ∀ c, c ∈ m ↔ c ∈ n := fun c => by
    rw [Memory.mem_iff_read hm, Memory.mem_iff_read hn]
    exact and_congr_right fun hc => by rw [h c.1 hc]
  have : Std.Irrefl fun c d : Host.Cell => c.1 < d.1 := ⟨fun c => lt_irrefl c.1⟩
  have : Std.Antisymm fun c d : Host.Cell => c.1 < d.1 := ⟨fun _ _ hcd hdc => absurd hcd hdc.asymm⟩
  exact hm.1.eq_of_mem_iff hn.1 hmem

end Sys2Proof.Machine
end

section
/-! PROOFS. The fetch of an instruction, and a step by the instruction it executes. -/

namespace Sys2Proof.Machine

@[simp] theorem State.fetchInstr_advance (s : State) (b : Byte) (pc0 : Nat) (op : Byte) :
    (s.advance b).fetchInstr pc0 op = s.fetchInstr pc0 op := rfl

theorem State.lt_of_memRead_eq_ok {s : State} {a : Nat} {v : Byte} (h : s.memRead a = .ok v) : a < 256 := by
  unfold State.memRead at h
  split at h
  · assumption
  · cases h

/-- A fetched instruction has the opcode of its first byte, and its last byte lies in the 256 cells (40_step_cycle.md R114, R115). -/
theorem State.fetchInstr_eq_ok {s : State} {pc0 : Nat} {op : Byte} {i : Instr} (hpc : pc0 ≤ 255)
    (h : s.fetchInstr pc0 op = .ok i) : i.opcode.byte = op ∧ pc0 + operandCount op ≤ 255 := by
  unfold State.fetchInstr at h
  split at h
  · cases h
  · rename_i o ho
    obtain rfl := Opcode.ofByte_eq_some.mp ho
    have hcount := o.format.operands_le
    rw [← o.operandCount_byte] at hcount
    split at h
    · cases h
      exact ⟨by rw [Opcode.opcode_instr], by omega⟩
    · cases hA : s.memRead (pc0 + 1) with
      | error e => simp [hA, bind, Except.bind] at h
      | ok A =>
        have := State.lt_of_memRead_eq_ok hA
        simp only [hA, bind, Except.bind] at h
        cases h
        exact ⟨by rw [Opcode.opcode_instr], by omega⟩
    · cases hA : s.memRead (pc0 + 1) with
      | error e => simp [hA, bind, Except.bind] at h
      | ok A =>
        cases hB : s.memRead (pc0 + 2) with
        | error e => simp [hA, hB, bind, Except.bind] at h
        | ok B =>
          have := State.lt_of_memRead_eq_ok hB
          simp only [hA, hB, bind, Except.bind] at h
          cases h
          exact ⟨by rw [Opcode.opcode_instr], by omega⟩

theorem step_of_pc_gt {s : State} (hr : s.run = .running) (hp : 255 < s.pc.toNat) :
    step s = .next (s.raise ⟨.outOfBounds, some s.pc.toNat⟩) := by
  rw [step_of_running hr, runningStep, State.fetchOpcode_of_gt hp]

theorem step_of_fetchInstr_error {s : State} {e : Raised} (hr : s.run = .running) (hp : s.pc.toNat ≤ 255)
    (hf : s.fetchInstr s.pc.toNat (s.mem.read s.pc.toNat) = .error e) :
    step s = .next ((s.advance (s.mem.read s.pc.toNat)).raise e) := by
  simp only [step_of_running hr, runningStep, State.fetchOpcode_of_le hp, State.fetchInstr_advance, hf]

theorem step_of_fetchInstr_ok {s : State} {i : Instr} (hr : s.run = .running) (hp : s.pc.toNat ≤ 255)
    (hf : s.fetchInstr s.pc.toNat (s.mem.read s.pc.toNat) = .ok i) :
    step s = exec i (s.advance (s.mem.read s.pc.toNat)) := by
  simp only [step_of_running hr, runningStep, State.fetchOpcode_of_le hp, State.fetchInstr_advance, hf]

/-- The states t in which a step from s can end. -/
inductive StepEffect (s : State) : State → Prop where
  /-- A terminal state stays (40_step_cycle.md R117). -/
  | ended (hr : s.run ≠ .running) : StepEffect s s
  /-- The opcode fetch raised: pc is above 255 and stays. -/
  | fetchFault (hr : s.run = .running) (hp : 255 < s.pc.toNat) :
      StepEffect s (s.raise ⟨.outOfBounds, some s.pc.toNat⟩)
  /-- The lookup or an operand fetch raised: pc is advanced. -/
  | lookupFault (e : Raised) (hr : s.run = .running) (hp : s.pc.toNat ≤ 255)
      (hf : s.fetchInstr s.pc.toNat (s.mem.read s.pc.toNat) = .error e) :
      StepEffect s ((s.advance (s.mem.read s.pc.toNat)).raise e)
  /-- The instruction i was fetched and executed, pc advanced. -/
  | executed (i : Instr) (t : State) (hr : s.run = .running) (hp : s.pc.toNat ≤ 255)
      (hf : s.fetchInstr s.pc.toNat (s.mem.read s.pc.toNat) = .ok i)
      (he : exec i (s.advance (s.mem.read s.pc.toNat)) = .next t) : StepEffect s t

theorem step_effect {s t : State} (h : step s = .next t) : StepEffect s t := by
  rcases step_cases s with ⟨hr, hs⟩ | ⟨hr, hp, hs⟩ | ⟨hr, hp, _, rfl, ⟨e, hf, hs⟩ | ⟨i, hf, hs⟩⟩ <;> rw [hs] at h
  · cases h
    exact .ended hr
  · cases h
    exact .fetchFault hr hp
  · cases h
    exact .lookupFault e hr hp hf
  · exact .executed i t hr hp hf h

end Sys2Proof.Machine
end

section
/-! PROOFS. What each kind of effect (Laws/Exec.lean) leaves of pc, fl, the run state, the events, the registers and the memory. -/

namespace Sys2Proof.Machine

variable {i : Instr} {s t : State}

/-- An instruction leaves the advanced pc or jumps to an 8-bit address (10_state.md R31). -/
theorem Effect.pc_eq_or_le (h : Effect i s t) : t.pc = s.pc ∨ t.pc.toNat ≤ 255 := by
  have hz : ∀ v : Byte, (zext9 v).toNat ≤ 255 := fun v => by
    have := v.isLt
    rw [toNat_zext9]
    omega
  cases h with
  | jumped _ _ v => exact .inr (hz v)
  | called => exact .inr (hz _)
  | returned => exact .inr (hz _)
  | _ => exact .inl rfl

/-- An instruction leaves fl, or is a CMP and leaves one of the comparator's answers (10_state.md R33). -/
theorem Effect.fl_eq_or_compared (h : Effect i s t) :
    t.fl = s.fl ∨ ∃ A B p q, i = .cmp A B ∧ t.fl = comparator p q := by
  cases h with
  | compared A B p q => exact .inr ⟨A, B, p, q, rfl, rfl⟩
  | _ => exact .inl rfl

/-- An instruction leaves the run state, faults, or is HLT (10_state.md R38). -/
theorem Effect.run_cases (h : Effect i s t) : t.run = s.run ∨ HasFaulted t ∨ i = .hlt := by
  cases h with
  | raised _ _ e => exact .inr (.inl ⟨e.kind, rfl⟩)
  | halted => exact .inr (.inr rfl)
  | _ => exact .inl rfl

/-- An instruction emits nothing, or is PRN or PRA and emits one event (10_state.md R40). -/
theorem Effect.events_cases (h : Effect i s t) :
    t.events = s.events ∨ ∃ v, (i.opcode = .prn ∧ t.events = s.events ++ [.num v]) ∨
      (i.opcode = .pra ∧ t.events = s.events ++ [.chr v]) := by
  cases h with
  | printedNumber A v => exact .inr ⟨v, .inl ⟨rfl, rfl⟩⟩
  | printedCharacter A v => exact .inr ⟨v, .inr ⟨rfl, rfl⟩⟩
  | _ => exact .inl rfl

/-- A register that is not among those written keeps its value (10_state.md R26). -/
theorem Effect.x_eq (h : Effect i s t) {r : RegIdx} (hr : ∀ o ∈ i.regsWritten, o.toNat ≠ r.val) : t.x r = s.x r := by
  have hne : ∀ {A : Byte} {a : RegIdx}, A.toNat = a.val → A ∈ i.regsWritten → r ≠ a := fun ha hA e =>
    hr _ hA (e ▸ ha)
  have h7 : (7 : Byte).toNat = (7 : RegIdx).val := rfl
  cases h with
  | wroteReg _ _ A a v _ hi ha => rw [State.x_setX, if_neg (hne ha (by simp [hi]))]
  | pushed => rw [State.x_setMem, State.x_setX, if_neg (hne h7 (by simp [Instr.regsWritten]))]
  | popped A v w a _ ha =>
    rw [State.x_setX, if_neg (hne h7 (by simp [Instr.regsWritten])), State.x_setX,
      if_neg (hne ha (by simp [Instr.regsWritten]))]
  | called =>
    rw [State.x_setPc, State.x_setMem, State.x_setX, if_neg (hne h7 (by simp [Instr.regsWritten]))]
  | returned => rw [State.x_setPc, State.x_setX, if_neg (hne h7 (by simp [Instr.regsWritten]))]
  | _ => rfl

theorem toNat_sub_one {p : Byte} (h : p ≠ 0) : (p - 1).toNat = p.toNat - 1 := by
  bv_omega

/-- An instruction leaves the memory, or writes one byte at the 8-bit address of its data access (20_memory.md R66). -/
theorem Effect.mem_eq_or_write (h : Effect i s t) :
    t.mem = s.mem ∨ ∃ a v : Byte, t.mem = s.mem.write a.toNat v ∧ ⟨.dataAccess, true, a.toNat⟩ ∈ dataAccess i s := by
  cases h with
  | stored A B a b _ ha hb =>
    exact .inr ⟨s.x a, s.x b, rfl, by
      simp only [dataAccess, reg_eq_ok.mpr ha, reg_eq_ok.mpr hb, State.address, List.mem_singleton]⟩
  | pushed A a _ ha h => exact .inr ⟨s.sp - 1, _, rfl, by
      simp only [dataAccess, reg_eq_ok.mpr ha, if_neg h, toNat_sub_one h, List.mem_singleton]⟩
  | called A a _ ha h => exact .inr ⟨s.sp - 1, _, rfl, by
      simp only [dataAccess, reg_eq_ok.mpr ha, if_neg h, toNat_sub_one h, List.mem_singleton]⟩
  | _ => exact .inl rfl

theorem Effect.inv (h : Effect i s t) (hs : Inv s) : Inv t := by
  obtain ⟨hmem, hpc, hfl⟩ := hs
  refine ⟨?_, ?_, ?_⟩
  · rcases h.mem_eq_or_write with hm | ⟨a, v, hm, -⟩ <;> rw [hm]
    · exact hmem
    · exact Memory.wf_write hmem a.isLt v
  · rcases h.pc_eq_or_le with hp | hp
    · rwa [hp]
    · omega
  · rcases h.fl_eq_or_compared with hf | ⟨-, -, p, q, -, hf⟩ <;> rw [hf]
    · exact hfl
    · rcases comparator_cases p q with ⟨-, hc⟩ | ⟨-, hc⟩ | ⟨-, hc⟩ <;> rw [hc] <;> decide

end Sys2Proof.Machine
end

section
/-! PROOFS. The arbiter's accesses in a step (20_memory.md R66): which they are, and that the fetch depends on those alone. -/

namespace Sys2Proof.Machine

variable {s : State}

theorem State.accesses_of_not_running (h : s.run ≠ .running) : s.accesses = [] := by
  unfold State.accesses
  split <;> simp_all

theorem State.accesses_of_pc_gt (h : 255 < s.pc.toNat) : s.accesses = [] := by
  unfold State.accesses
  rw [State.fetchOpcode_of_gt h]
  split <;> simp_all

/-- A fetch that faults after the opcode byte makes the fetches alone. -/
theorem State.accesses_of_fetchInstr_error {e : Raised} (hr : s.run = .running) (hp : s.pc.toNat ≤ 255)
    (hf : s.fetchInstr s.pc.toNat (s.mem.read s.pc.toNat) = .error e) :
    s.accesses = ⟨.opcodeFetch, false, s.pc.toNat⟩ :: operandAccesses s.pc.toNat (s.mem.read s.pc.toNat) := by
  simp only [State.accesses, hr, State.fetchOpcode_of_le hp, hf, List.append_nil]

/-- A step that executes an instruction makes its fetches and then its data access. -/
theorem State.accesses_of_fetchInstr_ok {i : Instr} (hr : s.run = .running) (hp : s.pc.toNat ≤ 255)
    (hf : s.fetchInstr s.pc.toNat (s.mem.read s.pc.toNat) = .ok i) :
    s.accesses = ⟨.opcodeFetch, false, s.pc.toNat⟩ ::
      (operandAccesses s.pc.toNat (s.mem.read s.pc.toNat) ++ dataAccess i s) := by
  simp only [State.accesses, hr, State.fetchOpcode_of_le hp, hf]

/-- The data access is told by the registers, so the advance does not change it. -/
@[simp] theorem dataAccess_advance (i : Instr) (s : State) (op : Byte) : dataAccess i (s.advance op) = dataAccess i s := by
  cases i <;> rfl

@[simp] theorem dataAccess_setMem (i : Instr) (s : State) (m : Memory) : dataAccess i (s.setMem m) = dataAccess i s := by
  cases i <;> rfl

end Sys2Proof.Machine
end

section
/-! PROOFS. The statements about the reset state, the memory list, and what one step can change (10_state.md). -/

namespace Sys2Proof

open Machine

/-- The registers after reset (10_state.md R25). -/
theorem x_resetWith (memInit : Memory) (r : RegIdx) : (State.resetWith memInit).x r = if r = 7 then 0xF4 else 0 := by
  fin_cases r <;> rfl

theorem inv_resetWith {memInit : Memory} (h : memInit.wf) : Inv (State.resetWith memInit) :=
  ⟨h, Nat.zero_le _, .inl rfl⟩

/-- A load that succeeds writes the program from address 0 on, within the 256 cells. -/
theorem load_eq_ok {s t : State} {program : List Byte} (h : s.load program = .ok t) :
    program.length ≤ Config.memSize ∧ t = s.setMem (s.mem.writeBytes 0 program) := by
  unfold State.load at h
  split at h
  · cases h
    exact ⟨‹_›, rfl⟩
  · cases h

/-- Settles O1, by the registers and the fields of the reset state. -/
theorem resetState : Obligations.ResetState := by
  intro memInit
  refine ⟨fun r hr => ?_, ?_, rfl, rfl, rfl, rfl, rfl⟩
  · rw [x_resetWith, if_neg hr]
  · rw [x_resetWith, if_pos rfl]

/-- Settles O2: the load writes within the 256 cells, which keeps the memory canonical. -/
theorem resetMeetsInvariant : Obligations.ResetMeetsInvariant := by
  refine ⟨inv_resetWith Memory.wf_nil, fun _ => inv_resetWith, fun memInit program t hwf hboot => ?_⟩
  obtain ⟨hlen, rfl⟩ := load_eq_ok hboot
  obtain ⟨hmem, hpc, hfl⟩ := inv_resetWith hwf
  exact ⟨Memory.wf_writeBytes hmem program (by simpa using hlen), hpc, hfl⟩

/-- Settles O60: a canonical list's cells are what it reads, in rising order. -/
theorem memoryIsCanonical : Obligations.MemoryIsCanonical :=
  fun _ _ hm hn h => Memory.eq_of_read_eq hm hn h

/-- The advance past a first byte leaves pc at most 255 + 1 + 3 (10_state.md R31). -/
theorem inv_advance {s : State} (hs : Inv s) (hp : s.pc.toNat ≤ 255) (op : Byte) : Inv (s.advance op) := by
  obtain ⟨hmem, -, hfl⟩ := hs
  refine ⟨hmem, ?_, hfl⟩
  have hpc := s.toNat_pc_advance op hp
  have hcount := operandCount_lt op
  omega

/-- Settles O3, by what each end of a step does to the invariant: a fault keeps it, the advance keeps it from a pc that can be
fetched, and every instruction's effect keeps it. -/
theorem stepKeepsInvariant : Obligations.StepKeepsInvariant := by
  intro s t hs h
  cases step_effect h with
  | ended => exact hs
  | fetchFault => exact hs
  | lookupFault e hr hp hf => exact inv_advance hs hp _
  | executed i _ hr hp hf he => exact (exec_effect i he).inv (inv_advance hs hp _)

/-- Settles O11: an instruction that is fetched whole ends at 255 or below. -/
theorem pcAtMost256UnlessFaulted : Obligations.PcAtMost256UnlessFaulted := by
  intro s t hrun h hsafe
  cases step_effect h with
  | ended hr => exact absurd hrun hr
  | fetchFault => exact absurd ⟨.outOfBounds, rfl⟩ hsafe
  | lookupFault e => exact absurd ⟨e.kind, rfl⟩ hsafe
  | executed i _ hr hp hf he =>
    obtain ⟨-, hlast⟩ := State.fetchInstr_eq_ok hp hf
    have hadv := s.toNat_pc_advance (s.mem.read s.pc.toNat) hp
    rcases (exec_effect i he).pc_eq_or_le with hpc | hpc
    · rw [hpc, hadv]
      omega
    · omega

/-- Settles O12: the only effect on fl is CMP's, and 0xA7 is its opcode byte. -/
theorem flagsWrittenOnlyByCompare : Obligations.FlagsWrittenOnlyByCompare := by
  have hexec : ∀ (i : Instr) (s t : State), exec i s = .next t → t.fl ≠ s.fl → ∃ A B, i = .cmp A B := by
    intro i s t h hne
    rcases (exec_effect i h).fl_eq_or_compared with hfl | ⟨A, B, -, -, hi, -⟩
    · exact absurd hfl hne
    · exact ⟨A, B, hi⟩
  refine ⟨hexec, fun s t h hne => ?_⟩
  cases step_effect h with
  | ended => exact absurd rfl hne
  | fetchFault => exact absurd rfl hne
  | lookupFault => exact absurd rfl hne
  | executed i _ hr hp hf he =>
    obtain ⟨A, B, rfl⟩ := hexec i _ t he hne
    exact ⟨hp, (State.fetchInstr_eq_ok hp hf).1.symm⟩

/-- Settles O14: only the effect of HLT halts, and the byte 0x01 is fetched as HLT, which raises nothing. -/
theorem haltedOnlyByHalt : Obligations.HaltedOnlyByHalt := by
  intro s t h
  have hlt_of_byte : s.mem.read s.pc.toNat = 0x01 → s.fetchInstr s.pc.toNat (s.mem.read s.pc.toNat) = .ok .hlt :=
    fun hb => by rw [hb]; rfl
  cases step_effect h with
  | ended hr => exact ⟨fun hrun => absurd hrun hr, fun _ => rfl⟩
  | fetchFault hr hp =>
    refine ⟨fun _ => ⟨fun ht => ?_, fun ⟨hp', _⟩ => absurd hp' hp.not_ge⟩, fun hne => absurd hr hne⟩
    cases ht
  | lookupFault e hr hp hf =>
    refine ⟨fun _ => ⟨fun ht => ?_, fun ⟨_, hb⟩ => ?_⟩, fun hne => absurd hr hne⟩
    · cases ht
    · rw [hlt_of_byte hb] at hf
      cases hf
  | executed i _ hr hp hf he =>
    refine ⟨fun _ => ⟨fun ht => ⟨hp, ?_⟩, fun ⟨_, hb⟩ => ?_⟩, fun hne => absurd hr hne⟩
    · rcases (exec_effect i he).run_cases with hrun | ⟨k, hrun⟩ | rfl
      · rw [ht, State.run_advance, hr] at hrun
        cases hrun
      · rw [ht] at hrun
        cases hrun
      · exact (State.fetchInstr_eq_ok hp hf).1.symm
    · rw [hlt_of_byte hb] at hf
      cases hf
      cases he
      rfl

/-- Settles O15: the only effects on the events are those of PRN and PRA, and 0x47 and 0x48 are their opcode bytes. -/
theorem eventsOnlyByOutput : Obligations.EventsOnlyByOutput := by
  intro s t h
  cases step_effect h with
  | ended => exact .inl rfl
  | fetchFault => exact .inl rfl
  | lookupFault => exact .inl rfl
  | executed i _ hr hp hf he =>
    obtain ⟨hbyte, -⟩ := State.fetchInstr_eq_ok hp hf
    rcases (exec_effect i he).events_cases with hev | ⟨v, ⟨hi, hev⟩ | ⟨hi, hev⟩⟩
    · exact .inl hev
    · rw [hi] at hbyte
      exact .inr ⟨v, .inl ⟨hbyte.symm, hev⟩⟩
    · rw [hi] at hbyte
      exact .inr ⟨v, .inr ⟨hbyte.symm, hev⟩⟩

/-- Settles O16, by the registers that each effect writes. -/
theorem registersWritten : Obligations.RegistersWritten :=
  fun i _ _ _ h hr => (exec_effect i h).x_eq hr

/-- Settles O18: the memory an instruction leaves is the old one, or the old one with the byte of its data access written. -/
theorem memoryWrittenOnlyByArbiterWrite : Obligations.MemoryWrittenOnlyByArbiterWrite := by
  intro s t a h hacc
  cases step_effect h with
  | ended => rfl
  | fetchFault => rfl
  | lookupFault => rfl
  | executed i _ hr hp hf he =>
    rcases (exec_effect i he).mem_eq_or_write with hm | ⟨b, v, hm, hb⟩
    · rw [hm, State.mem_advance]
    · rw [dataAccess_advance] at hb
      have hne : b.toNat ≠ a := hacc ⟨.dataAccess, true, b.toNat⟩
        (by simp [State.accesses_of_fetchInstr_ok hr hp hf, hb]) rfl
      rw [hm, Memory.read_write, if_neg hne.symm, State.mem_advance]

end Sys2Proof
end

section
/-! PROOFS. Noninterference: two machines that agree on what an instruction reads do the same updates with the same values. -/

namespace Sys2Proof.Machine

/-- Two computations that may raise end alike: both give values that R relates, or both raise the same. -/
inductive Agree {α β : Type} (R : α → β → Prop) : Except Raised α → Except Raised β → Prop where
  | ok {x : α} {y : β} (h : R x y) : Agree R (.ok x) (.ok y)
  | error (e : Raised) : Agree R (.error e) (.error e)

theorem Agree.of_eq {α : Type} {x y : Except Raised α} (h : y = x) : Agree (fun v w => w = v) x y := by
  subst h
  cases y with
  | ok v => exact .ok rfl
  | error e => exact .error e

theorem Agree.bind {α β γ δ : Type} {R : α → β → Prop} {S : γ → δ → Prop} {x : Except Raised α} {y : Except Raised β}
    {f : α → Except Raised γ} {g : β → Except Raised δ} (h : Agree R x y) (hfg : ∀ v w, R v w → Agree S (f v) (g w)) :
    Agree S (x >>= f) (y >>= g) := by
  cases h with
  | ok h => exact hfg _ _ h
  | error e => exact .error e

/-- Two outcomes are next states that R relates. -/
def Lockstep (R : State → State → Prop) (o o' : Host.Outcome State Fault Refusal) : Prop :=
  ∃ t u, o = .next t ∧ o' = .next u ∧ R t u

theorem Lockstep.next {R : State → State → Prop} {t u : State} (h : R t u) : Lockstep R (.next t) (.next u) :=
  ⟨t, u, rfl, rfl, h⟩

theorem Lockstep.of_next {R : State → State → Prop} {t : State} {o o' : Host.Outcome State Fault Refusal}
    (h : Lockstep R o o') (ho : o = .next t) : ∃ u, o' = .next u ∧ R t u := by
  obtain ⟨t', u, ht, hu, hR⟩ := h
  cases ho.symm.trans ht
  exact ⟨u, hu, hR⟩

section
variable {R : State → State → Prop} {s s' : State}

theorem lockstep_finish {x y : Except Raised State} (hraise : ∀ e, R (s.raise e) (s'.raise e)) (h : Agree R x y) :
    Lockstep R (s.finish x) (s'.finish y) := by
  cases h with
  | ok h => exact .next h
  | error e => exact .next (hraise e)

theorem lockstep_onReg {A : Byte} {f g : RegIdx → Except Raised State} (hraise : ∀ e, R (s.raise e) (s'.raise e))
    (h : ∀ a : RegIdx, A.toNat = a.val → Agree R (f a) (g a)) : Lockstep R (onReg A s f) (onReg A s' g) := by
  rcases reg_cases A with ⟨a, ha, -⟩ | ⟨hA, -⟩
  · rw [onReg_names ha, onReg_names ha]
    exact lockstep_finish hraise (h a ha)
  · rw [onReg_gt hA, onReg_gt hA]
    exact .next (hraise ⟨.invalidRegister, none⟩)

theorem lockstep_onRegs {A B : Byte} {f g : RegIdx → RegIdx → Except Raised State}
    (hraise : ∀ e, R (s.raise e) (s'.raise e))
    (h : ∀ a b : RegIdx, A.toNat = a.val → B.toNat = b.val → Agree R (f a b) (g a b)) :
    Lockstep R (onRegs A B s f) (onRegs A B s' g) := by
  rcases reg_cases A with ⟨a, ha, -⟩ | ⟨hA, -⟩
  · rcases reg_cases B with ⟨b, hb, -⟩ | ⟨hB, -⟩
    · rw [onRegs_names ha hb, onRegs_names ha hb]
      exact lockstep_finish hraise (h a b ha hb)
    · rw [onRegs_gt (.inr hB), onRegs_gt (.inr hB)]
      exact .next (hraise ⟨.invalidRegister, none⟩)
  · rw [onRegs_gt (.inl hA), onRegs_gt (.inl hA)]
    exact .next (hraise ⟨.invalidRegister, none⟩)

end

/-- From s and s' the same updates with the same values lead to t and u. -/
inductive Follows (s s' : State) : State → State → Prop where
  | start : Follows s s' s s'
  | raise {t u : State} (h : Follows s s' t u) (e : Raised) : Follows s s' (t.raise e) (u.raise e)
  | setX {t u : State} (h : Follows s s' t u) (a : RegIdx) (v : Byte) : Follows s s' (t.setX a v) (u.setX a v)
  | setPc {t u : State} (h : Follows s s' t u) (p : PcWord) : Follows s s' (t.setPc p) (u.setPc p)
  | setFl {t u : State} (h : Follows s s' t u) (f : Byte) : Follows s s' (t.setFl f) (u.setFl f)
  | setRun {t u : State} (h : Follows s s' t u) (r : RunState) : Follows s s' (t.setRun r) (u.setRun r)
  | emit {t u : State} (h : Follows s s' t u) (e : Event) : Follows s s' (t.emit e) (u.emit e)
  | write {t u : State} (h : Follows s s' t u) (a : Nat) (v : Byte) :
      Follows s s' (t.setMem (t.mem.write a v)) (u.setMem (u.mem.write a v))

namespace Follows

variable {s s' t u : State}

/-- A register was written with the same value in both, or is as it was in both. -/
theorem x_eq_or (h : Follows s s' t u) (r : RegIdx) : u.x r = t.x r ∨ (t.x r = s.x r ∧ u.x r = s'.x r) := by
  induction h with
  | start => exact .inr ⟨rfl, rfl⟩
  | setX _ a v ih =>
    rw [State.x_setX, State.x_setX]
    split
    · exact .inl rfl
    · exact ih
  | _ => assumption

theorem x_eq (h : Follows s s' t u) {r : RegIdx} (hr : s'.x r = s.x r) : u.x r = t.x r := by
  rcases h.x_eq_or r with h | ⟨ht, hu⟩
  · exact h
  · rw [ht, hu, hr]

theorem fl_eq_or (h : Follows s s' t u) : u.fl = t.fl ∨ (t.fl = s.fl ∧ u.fl = s'.fl) := by
  induction h with
  | start => exact .inr ⟨rfl, rfl⟩
  | setFl => exact .inl rfl
  | _ => assumption

theorem fl_eq (h : Follows s s' t u) (hfl : s'.fl = s.fl) : u.fl = t.fl := by
  rcases h.fl_eq_or with h | ⟨ht, hu⟩
  · exact h
  · rw [ht, hu, hfl]

theorem pc_eq (h : Follows s s' t u) (hpc : s'.pc = s.pc) : u.pc = t.pc := by
  induction h with
  | start => exact hpc
  | setPc => rfl
  | _ => assumption

theorem run_eq (h : Follows s s' t u) (hrun : s'.run = s.run) : u.run = t.run := by
  induction h with
  | start => exact hrun
  | raise | setRun => rfl
  | _ => assumption

theorem events_eq (h : Follows s s' t u) (hev : s'.events = s.events) : u.events = t.events := by
  induction h with
  | start => exact hev
  | emit _ e ih => rw [State.events_emit, State.events_emit, ih]
  | _ => assumption

theorem sameMem (h : Follows s s' t u) (hmem : SameMem s s') : SameMem t u := by
  induction h with
  | start => exact hmem
  | write _ a v ih =>
    intro b
    rw [State.mem_setMem, State.mem_setMem, Memory.read_write, Memory.read_write, ih b]
  | _ => assumption

end Follows

/-- The condition and the operand byte of a conditional jump (46_control_transfer.md R203, R204). -/
def jumpCond : Instr → Option ((Byte → Bool) × Byte)
  | .jeq A => some (condEq, A)
  | .jne A => some (condNe, A)
  | .jgt A => some (condGt, A)
  | .jlt A => some (condLt, A)
  | .jge A => some (condGe, A)
  | .jle A => some (condLe, A)
  | _ => none

theorem exec_of_jumpCond {i : Instr} {c : Byte → Bool} {A : Byte} (h : jumpCond i = some (c, A)) (s : State) :
    exec i s = jumpIf c A s := by
  cases i <;> cases h <;> rfl

/-- The states s and s' agree on everything that the instruction i reads. -/
structure ReadsAlike (i : Instr) (s s' : State) : Prop where
  regs : ∀ o ∈ i.regsRead, ∀ a : RegIdx, o.toNat = a.val → s'.x a = s.x a
  fl : (jumpCond i).isSome = true → s'.fl = s.fl
  pc : s'.pc = s.pc
  mem : ∀ acc ∈ dataAccess i s, acc.isWrite = false → s'.mem.read acc.addr = s.mem.read acc.addr

section
variable {i : Instr} {s s' : State}

theorem lockstep_alu1 {op : Byte → Byte} {A : Byte} (hA : ∀ a : RegIdx, A.toNat = a.val → s'.x a = s.x a) :
    Lockstep (Follows s s') (alu1 op A s) (alu1 op A s') :=
  lockstep_onReg Follows.start.raise fun a ha => by
    rw [hA a ha]
    exact .ok (Follows.start.setX a _)

theorem lockstep_alu2 {op : Byte → Byte → Except Raised Byte} {A B : Byte}
    (hA : ∀ a : RegIdx, A.toNat = a.val → s'.x a = s.x a) (hB : ∀ b : RegIdx, B.toNat = b.val → s'.x b = s.x b) :
    Lockstep (Follows s s') (alu2 op A B s) (alu2 op A B s') :=
  lockstep_onRegs Follows.start.raise fun a b ha hb => by
    rw [hA a ha, hB b hb]
    refine (Agree.of_eq rfl).bind fun v w hvw => ?_
    subst hvw
    exact .ok (Follows.start.setX a _)

theorem lockstep_jumpIf {c : Byte → Bool} {A : Byte} (hA : ∀ a : RegIdx, A.toNat = a.val → s'.x a = s.x a)
    (hfl : s'.fl = s.fl) : Lockstep (Follows s s') (jumpIf c A s) (jumpIf c A s') :=
  lockstep_onReg Follows.start.raise fun a ha => by
    rw [hA a ha, hfl]
    split
    · exact .ok (Follows.start.setPc _)
    · exact .ok .start

/-- A conditional jump that is not taken reads no register (46_control_transfer.md R203). -/
theorem lockstep_jumpIf_untaken {c : Byte → Bool} {A : Byte} (hc : c s.fl = false) (hfl : s'.fl = s.fl) :
    Lockstep (Follows s s') (jumpIf c A s) (jumpIf c A s') :=
  lockstep_onReg Follows.start.raise fun a ha => by
    rw [hfl, hc]
    exact .ok .start

/-- Two pushes of the same value from the same SP. -/
theorem stackPush_agree {v w : State → Int} (hsp : s'.sp = s.sp)
    (hvw : w (s'.setX 7 (s.sp - 1)) = v (s.setX 7 (s.sp - 1))) :
    Agree (Follows s s') (s.stackPush v) (s'.stackPush w) := by
  by_cases h : s.sp = 0
  · rw [State.stackPush_zero h, State.stackPush_zero (hsp.trans h)]
    exact .error _
  · rw [State.stackPush_pos h, State.stackPush_pos (hsp ▸ h), hsp, hvw]
    exact .ok ((Follows.start.setX 7 _).write _ _)

/-- An instruction does the same from two states that agree on everything it reads. -/
theorem exec_lockstep (h : ReadsAlike i s s') : Lockstep (Follows s s') (exec i s) (exec i s') := by
  obtain ⟨hregs, hfl, hpc, hmem⟩ := h
  have hraise := (Follows.start (s := s) (s' := s')).raise
  cases i with
  | add A B | sub A B | mul A B | div A B | mod A B | and A B | or A B | xor A B | shl A B | shr A B =>
    exact lockstep_alu2 (hregs A (.head _)) (hregs B (.tail _ (.head _)))
  | inc A | dec A | not A => exact lockstep_alu1 (hregs A (.head _))
  | jeq A | jne A | jgt A | jlt A | jge A | jle A =>
    exact lockstep_jumpIf (hregs A (.head _)) (hfl rfl)
  | nop | iret => exact .next .start
  | int A => exact .next .start
  | hlt => exact .next (Follows.start.setRun _)
  | ldi A B => exact lockstep_onReg hraise fun a _ => .ok (Follows.start.setX a B)
  | prn A =>
    refine lockstep_onReg hraise fun a ha => ?_
    rw [hregs A (.head _) a ha]
    exact .ok (Follows.start.emit _)
  | pra A =>
    refine lockstep_onReg hraise fun a ha => ?_
    rw [hregs A (.head _) a ha]
    exact .ok (Follows.start.emit _)
  | cmp A B =>
    refine lockstep_onRegs hraise fun a b ha hb => ?_
    rw [hregs A (.head _) a ha, hregs B (.tail _ (.head _)) b hb]
    exact .ok (Follows.start.setFl _)
  | jmp A =>
    refine lockstep_onReg hraise fun a ha => ?_
    rw [hregs A (.head _) a ha]
    exact .ok (Follows.start.setPc _)
  | push A =>
    have hsp : s'.sp = s.sp := hregs 7 (.head _) 7 rfl
    refine lockstep_onReg hraise fun a ha => stackPush_agree hsp ?_
    rw [(Follows.start.setX 7 _).x_eq (hregs A (.tail _ (.head _)) a ha)]
  | call A =>
    have hsp : s'.sp = s.sp := hregs 7 (.head _) 7 rfl
    refine lockstep_onReg hraise fun a ha => (stackPush_agree hsp (by rw [hpc])).bind fun t u htu => ?_
    rw [htu.x_eq (hregs A (.tail _ (.head _)) a ha)]
    exact .ok (htu.setPc _)
  | pop A =>
    have hsp : s'.sp = s.sp := hregs 7 (.head _) 7 rfl
    refine lockstep_onReg hraise fun a ha => ?_
    have hread : s'.mem.read s.sp.toNat = s.mem.read s.sp.toNat :=
      hmem ⟨.dataAccess, false, s.sp.toNat⟩ (by simp [dataAccess, reg_eq_ok.mpr ha]) rfl
    rw [hsp, State.memRead_byte, State.memRead_byte, hread]
    refine (Agree.of_eq rfl).bind fun v w hvw => ?_
    subst hvw
    refine (Agree.of_eq rfl).bind fun p q hpq => ?_
    subst hpq
    exact .ok ((Follows.start.setX a _).setX 7 _)
  | ret =>
    have hsp : s'.sp = s.sp := hregs 7 (.head _) 7 rfl
    refine lockstep_finish hraise ?_
    by_cases h0 : s.sp = 255
    · rw [hsp, h0]
      exact .error _
    · have hread : s'.mem.read s.sp.toNat = s.mem.read s.sp.toNat :=
        hmem ⟨.dataAccess, false, s.sp.toNat⟩ (by rw [dataAccess, if_neg h0]; exact .head _) rfl
      rw [hsp, spInc_of_ne h0, State.memRead_byte, State.memRead_byte, hread]
      exact .ok ((Follows.start.setX 7 _).setPc _)
  | st A B =>
    refine lockstep_onRegs hraise fun a b ha hb => ?_
    rw [State.address, State.address, hregs A (.head _) a ha,
      hregs B (.tail _ (.head _)) b hb, State.memWrite_byte, State.memWrite_byte]
    exact .ok (Follows.start.write _ _)
  | ld A B =>
    refine lockstep_onRegs hraise fun a b ha hb => ?_
    have hread : s'.mem.read (s.x b).toNat = s.mem.read (s.x b).toNat :=
      hmem ⟨.dataAccess, false, (s.x b).toNat⟩ (by simp [dataAccess, reg_eq_ok.mpr ha, reg_eq_ok.mpr hb, State.address]) rfl
    rw [State.address, State.address, hregs B (.head _) b hb, State.memRead_byte,
      State.memRead_byte, hread]
    exact .ok (Follows.start.setX a _)

end

end Sys2Proof.Machine
end

section
/-! PROOFS. What a step's data write stores, and the fetch under another memory (20_memory.md R66). -/

namespace Sys2Proof.Machine

theorem exec_st {A B : Byte} {a b : RegIdx} (ha : A.toNat = a.val) (hb : B.toNat = b.val) (s : State) :
    exec (.st A B) s = .next (s.setMem (s.mem.write (s.x a).toNat (s.x b))) := by
  rw [exec, execSt, onRegs_names ha hb, State.address, State.memWrite_byte, trunc8_toNat, State.finish_ok]

theorem exec_push {A : Byte} {a : RegIdx} (ha : A.toNat = a.val) {s : State} (h : s.sp ≠ 0) :
    exec (.push A) s = .next ((s.setX 7 (s.sp - 1)).setMem
      (s.mem.write (s.sp - 1).toNat ((s.setX 7 (s.sp - 1)).x a))) := by
  rw [exec, execPush, onReg_names ha, State.stackPush_pos h, trunc8_toNat, State.finish_ok]

theorem exec_call {A : Byte} {a : RegIdx} (ha : A.toNat = a.val) {s : State} (h : s.sp ≠ 0) :
    exec (.call A) s = .next (((s.setX 7 (s.sp - 1)).setMem
      (s.mem.write (s.sp - 1).toNat (trunc8 s.pc.toNat))).setPc (zext9 ((s.setX 7 (s.sp - 1)).x a))) := by
  rw [exec, execCall, onReg_names ha, State.stackPush_pos h]
  rfl

/-- The write accesses: that of ST, and those of PUSH and CALL with SP above 0. -/
theorem dataAccess_write {i : Instr} {s : State} {acc : Access} (hacc : acc ∈ dataAccess i s)
    (hw : acc.isWrite = true) :
    (∃ A B, ∃ a b : RegIdx, i = .st A B ∧ A.toNat = a.val ∧ B.toNat = b.val ∧ acc.addr = (s.x a).toNat) ∨
      (∃ A, ∃ a : RegIdx, (i = .push A ∨ i = .call A) ∧ A.toNat = a.val ∧ s.sp ≠ 0 ∧
        acc.addr = (s.sp - 1).toNat) := by
  cases i with
  | st A B =>
    rcases reg_cases A with ⟨a, ha, hra⟩ | ⟨-, hra⟩
    · rcases reg_cases B with ⟨b, hb, hrb⟩ | ⟨-, hrb⟩
      · simp only [dataAccess, hra, hrb, List.mem_singleton] at hacc
        exact .inl ⟨A, B, a, b, rfl, ha, hb, by rw [hacc, State.address]⟩
      · simp [dataAccess, hra, hrb] at hacc
    · simp [dataAccess, hra] at hacc
  | push A | call A =>
    rcases reg_cases A with ⟨a, ha, hra⟩ | ⟨-, hra⟩
    · by_cases h0 : s.sp = 0
      · simp [dataAccess, hra, h0] at hacc
      · simp only [dataAccess, hra, if_neg h0, List.mem_singleton] at hacc
        exact .inr ⟨A, a, by simp, ha, h0, by rw [hacc, toNat_sub_one h0]⟩
    · simp [dataAccess, hra] at hacc
  | pop A =>
    rcases reg_cases A with ⟨a, -, hra⟩ | ⟨-, hra⟩ <;> simp [dataAccess, hra] at hacc
    simp [hacc] at hw
  | ret =>
    by_cases h0 : s.sp = 255 <;> simp [dataAccess, h0] at hacc
    simp [hacc] at hw
  | ld A B =>
    rcases reg_cases A with ⟨a, -, hra⟩ | ⟨-, hra⟩ <;>
      rcases reg_cases B with ⟨b, -, hrb⟩ | ⟨-, hrb⟩ <;> simp [dataAccess, hra, hrb] at hacc
    simp [hacc] at hw
  | _ => simp [dataAccess] at hacc

/-- The byte that an instruction's data access writes depends on no memory cell. -/
theorem read_write_access {i : Instr} {s : State} {acc : Access} (hacc : acc ∈ dataAccess i s)
    (hw : acc.isWrite = true) :
    ∃ v, ∀ m t, exec i (s.setMem m) = .next t → t.mem.read acc.addr = v := by
  rcases dataAccess_write hacc hw with ⟨A, B, a, b, rfl, ha, hb, haddr⟩ | ⟨A, a, rfl | rfl, ha, h0, haddr⟩ <;>
    rw [haddr]
  · refine ⟨s.x b, fun m t h => ?_⟩
    rw [exec_st ha hb] at h
    cases h
    simp
  · refine ⟨(s.setX 7 (s.sp - 1)).x a, fun m t h => ?_⟩
    rw [exec_push ha (s := s.setMem m) h0] at h
    cases h
    simp
  · refine ⟨trunc8 s.pc.toNat, fun m t h => ?_⟩
    rw [exec_call ha (s := s.setMem m) h0] at h
    cases h
    simp

/-- Under another memory that agrees on the cell an instruction's data access reads, the instruction does the same and its data
access writes the same. -/
theorem exec_lockstep_setMem {i : Instr} {s : State} {m : Memory}
    (h : ∀ acc ∈ dataAccess i s, acc.isWrite = false → m.read acc.addr = s.mem.read acc.addr) :
    Lockstep (fun t u => Follows s (s.setMem m) t u ∧
      ∀ acc ∈ dataAccess i s, acc.isWrite = true → u.mem.read acc.addr = t.mem.read acc.addr)
      (exec i s) (exec i (s.setMem m)) := by
  have hreads : ReadsAlike i s (s.setMem m) := ⟨fun _ _ _ _ => rfl, fun _ => rfl, rfl, h⟩
  obtain ⟨t, u, ht, hu, hfol⟩ := exec_lockstep hreads
  refine ⟨t, u, ht, hu, hfol, fun acc ha hw => ?_⟩
  obtain ⟨v, hv⟩ := read_write_access ha hw
  rw [hv m u hu, hv s.mem t ht]

theorem State.memRead_setMem {s : State} {m : Memory} {a : Nat} (h : a < Config.memSize → m.read a = s.mem.read a) :
    (s.setMem m).memRead a = s.memRead a := by
  unfold State.memRead
  split
  · rw [State.mem_setMem, h ‹_›]
  · rfl

theorem isWrite_of_mem_operandAccesses {pc0 : Nat} {op : Byte} {acc : Access} (h : acc ∈ operandAccesses pc0 op) :
    acc.isWrite = false := by
  unfold operandAccesses at h
  split at h
  · cases h
  · obtain ⟨k, -, rfl⟩ := List.mem_map.mp h
    rfl

/-- The operand fetches of a legal opcode byte are at the addresses below 256 among the next ones. -/
theorem mem_operandAccesses {o : Opcode} {op : Byte} (ho : Opcode.ofByte op = some o) {pc0 k : Nat}
    (hk : k < operandCount op) (ha : pc0 + 1 + k < Config.memSize) :
    ⟨.operandFetch, false, pc0 + 1 + k⟩ ∈ operandAccesses pc0 op := by
  simp only [operandAccesses, ho, List.mem_map, List.mem_filter, List.mem_range, decide_eq_true_eq]
  exact ⟨k, ⟨hk, ha⟩, rfl⟩

/-- The lookup and the operand fetches depend on no cell but those of the operand fetches. -/
theorem State.fetchInstr_setMem {s : State} {m : Memory} {pc0 : Nat} {op : Byte}
    (h : ∀ acc ∈ operandAccesses pc0 op, m.read acc.addr = s.mem.read acc.addr) :
    (s.setMem m).fetchInstr pc0 op = s.fetchInstr pc0 op := by
  unfold State.fetchInstr
  split
  · rfl
  · rename_i o ho
    have hread : ∀ k < operandCount op, (s.setMem m).memRead (pc0 + 1 + k) = s.memRead (pc0 + 1 + k) :=
      fun k hk => State.memRead_setMem fun ha => h _ (mem_operandAccesses ho hk ha)
    split
    · rfl
    · rw [hread 0 (by omega)]
    · rename_i h0 h1
      have hcount : 1 < operandCount op := Nat.one_lt_iff_ne_zero_and_ne_one.mpr ⟨h0, h1⟩
      rw [hread 0 (by omega), hread 1 hcount]

/-- A fetch depends on no cell but the opcode byte and those of the operand fetches. -/
theorem State.fetchInstr_setMem_at_pc {s : State} {m : Memory} (hop : m.read s.pc.toNat = s.mem.read s.pc.toNat)
    (h : ∀ acc ∈ operandAccesses s.pc.toNat (s.mem.read s.pc.toNat), acc.isWrite = false →
      m.read acc.addr = s.mem.read acc.addr) :
    (s.setMem m).fetchInstr s.pc.toNat (m.read s.pc.toNat) = s.fetchInstr s.pc.toNat (s.mem.read s.pc.toNat) := by
  rw [hop]
  exact State.fetchInstr_setMem fun acc hacc => h acc hacc (isWrite_of_mem_operandAccesses hacc)

end Sys2Proof.Machine
end

section
/-! PROOFS. The statements about what an instruction and a step read (10_state.md R26, R34; 20_memory.md R66). -/

namespace Sys2Proof

open Machine

/-- Under another fl a conditional jump may go elsewhere, and nothing else differs. -/
theorem lockstep_jumpIf_setFl {c : Byte → Bool} {A : Byte} {s : State} {fl : Byte} :
    Lockstep (fun t u => ∃ p, u = (t.setFl fl).setPc p) (jumpIf c A s) (jumpIf c A (s.setFl fl)) :=
  lockstep_onReg (fun _ => ⟨s.pc, rfl⟩) fun a _ => by
    split <;> split
    all_goals exact .ok ⟨_, rfl⟩

theorem jumpCond_eq_none {i : Instr}
    (h : ∀ A, i ≠ .jeq A ∧ i ≠ .jne A ∧ i ≠ .jgt A ∧ i ≠ .jlt A ∧ i ≠ .jge A ∧ i ≠ .jle A) : jumpCond i = none := by
  cases i with
  | jeq A | jne A | jgt A | jlt A | jge A | jle A => simp at h
  | _ => rfl

/-- Settles O13: an instruction that is no conditional jump runs in lockstep with itself under another fl. -/
theorem flagsReadOnlyByConditionalJumps : Obligations.FlagsReadOnlyByConditionalJumps := by
  intro i s t fl h
  cases hj : jumpCond i with
  | none =>
    have hreads : ReadsAlike i s (s.setFl fl) := ⟨fun _ _ _ _ => rfl, by simp [hj], rfl, fun _ _ _ => rfl⟩
    obtain ⟨u, hu, hf⟩ := (exec_lockstep hreads).of_next h
    refine ⟨u, hu, fun r _ => hf.x_eq rfl, hf.sameMem fun _ => rfl, hf.run_eq rfl, hf.events_eq rfl,
      fun _ => hf.pc_eq rfl, ?_⟩
    rcases (exec_effect i hu).fl_eq_or_compared with hfl | ⟨A, B, -, -, hi, -⟩
    · exact .inr hfl
    · exact hf.fl_eq_or.imp (fun h => ⟨⟨A, B, hi⟩, h⟩) fun h => h.2
  | some cA =>
    obtain ⟨c, A⟩ := cA
    rw [exec_of_jumpCond hj] at h
    obtain ⟨_, hu, p, rfl⟩ := (lockstep_jumpIf_setFl (fl := fl)).of_next h
    refine ⟨_, (exec_of_jumpCond hj _).trans hu, fun _ _ => rfl, fun _ => rfl, rfl, rfl, fun hnot => ?_, .inr rfl⟩
    rw [jumpCond_eq_none hnot] at hj
    cases hj

/-- Settles O17: two states that differ in a register that is not read run in lockstep. -/
theorem registersRead : Obligations.RegistersRead := by
  intro i s t r v h hread
  have hstep : Lockstep (Follows s (s.setX r v)) (exec i s) (exec i (s.setX r v)) := by
    rcases hread with hread |
      ⟨A, ⟨rfl, hE⟩ | ⟨rfl, hE⟩ | ⟨rfl, hG⟩ | ⟨rfl, hL⟩ | ⟨rfl, hG, hE⟩ | ⟨rfl, hL, hE⟩⟩
    · refine exec_lockstep ⟨fun o ho a ha => ?_, fun _ => rfl, rfl, fun _ _ _ => rfl⟩
      rw [State.x_setX, if_neg fun e => hread o ho (by rw [ha, e])]
    · exact lockstep_jumpIf_untaken hE rfl
    · exact lockstep_jumpIf_untaken (by rw [condNe, flagE, hE, Bool.not_true]) rfl
    · exact lockstep_jumpIf_untaken hG rfl
    · exact lockstep_jumpIf_untaken hL rfl
    · exact lockstep_jumpIf_untaken (by rw [condGe, flagG, flagE, hG, hE, Bool.or_self]) rfl
    · exact lockstep_jumpIf_untaken (by rw [condLe, flagL, flagE, hL, hE, Bool.or_self]) rfl
  obtain ⟨u, hu, hf⟩ := hstep.of_next h
  refine ⟨u, hu, fun q hq => hf.x_eq ?_, hf.sameMem fun _ => rfl, hf.pc_eq rfl, hf.fl_eq rfl, hf.run_eq rfl,
    hf.events_eq rfl, (hf.x_eq_or r).imp_right fun ⟨ht, hu⟩ => ⟨?_, ht⟩⟩
  · rw [State.x_setX, if_neg (by simpa using hq)]
  · rw [hu, State.x_setX, if_pos rfl]

/-- Settles O19: the fetch depends on the fetched cells alone, the execution runs in lockstep with itself under the other memory, and
what it writes depends on no cell. -/
theorem stepDependsOnlyOnArbiterReads : Obligations.StepDependsOnlyOnArbiterReads := by
  intro s t m h hag
  have hfetch {acc : Access} (ha : acc ∈ operandAccesses s.pc.toNat (s.mem.read s.pc.toNat)) : acc.isWrite ≠ true :=
    fun hw => by simp [isWrite_of_mem_operandAccesses ha] at hw
  cases step_effect h with
  | ended hr =>
    have hacc := State.accesses_of_not_running hr
    refine ⟨s.setMem m, step_of_not_running hr, fun _ _ => rfl, rfl, rfl, rfl, rfl, ?_, by simp [hacc]⟩
    exact (State.accesses_of_not_running (s := s.setMem m) hr).trans hacc.symm
  | fetchFault hr hp =>
    have hacc := State.accesses_of_pc_gt hp
    refine ⟨_, step_of_pc_gt (s := s.setMem m) hr hp, fun _ _ => rfl, rfl, rfl, rfl, rfl, ?_, by simp [hacc]⟩
    exact (State.accesses_of_pc_gt (s := s.setMem m) hp).trans hacc.symm
  | lookupFault e hr hp hf =>
    have hacc := State.accesses_of_fetchInstr_error hr hp hf
    rw [hacc] at hag ⊢
    have hop : m.read s.pc.toNat = s.mem.read s.pc.toNat := hag _ (.head _) rfl
    have hf' := (State.fetchInstr_setMem_at_pc hop fun acc ha => hag acc (.tail _ ha)).trans hf
    refine ⟨_, step_of_fetchInstr_error (s := s.setMem m) hr hp hf', fun _ _ => rfl, ?_, rfl, rfl, rfl, ?_,
      fun acc ha hw => ?_⟩
    · simp [hop]
    · rw [← hop]
      exact State.accesses_of_fetchInstr_error (s := s.setMem m) hr hp hf'
    · rcases List.mem_cons.mp ha with rfl | ha
      · cases hw
      · exact absurd hw (hfetch ha)
  | executed i _ hr hp hf he =>
    have hacc := State.accesses_of_fetchInstr_ok hr hp hf
    rw [hacc] at hag ⊢
    have hop : m.read s.pc.toNat = s.mem.read s.pc.toNat := hag _ (.head _) rfl
    have hf' := (State.fetchInstr_setMem_at_pc hop fun acc ha =>
      hag acc (.tail _ (List.mem_append_left _ ha))).trans hf
    have hexec := exec_lockstep_setMem (i := i) (s := s.advance (s.mem.read s.pc.toNat)) (m := m) fun acc ha =>
      hag acc (.tail _ (List.mem_append_right _ (by rwa [dataAccess_advance] at ha)))
    obtain ⟨u, hu, hfol, hwrites⟩ := hexec.of_next he
    refine ⟨u, ?_, fun r _ => hfol.x_eq rfl, hfol.pc_eq rfl, hfol.fl_eq rfl, hfol.run_eq rfl, hfol.events_eq rfl, ?_,
      fun acc ha hw => ?_⟩
    · rw [← hop] at hu
      exact (step_of_fetchInstr_ok (s := s.setMem m) hr hp hf').trans hu
    · rw [← hop, ← dataAccess_setMem i s m]
      exact State.accesses_of_fetchInstr_ok (s := s.setMem m) hr hp hf'
    · rcases List.mem_cons.mp ha with rfl | ha
      · cases hw
      · rcases List.mem_append.mp ha with ha | ha
        · exact absurd hw (hfetch ha)
        · exact hwrites acc (by rwa [dataAccess_advance]) hw

end Sys2Proof
end

section
/-! PROOFS. The kinds, the number and the addresses of a step's accesses (20_memory.md R66). -/

namespace Sys2Proof.Machine

/-- An instruction makes no data access, or one at an 8-bit address. -/
theorem dataAccess_cases (i : Instr) (s : State) :
    dataAccess i s = [] ∨ ∃ (w : Bool) (v : Byte), dataAccess i s = [⟨.dataAccess, w, v.toNat⟩] := by
  cases i with
  | push A | call A =>
    rcases reg_cases A with ⟨a, -, hA⟩ | ⟨-, hA⟩
    · by_cases h0 : s.sp = 0
      · exact .inl (by simp only [dataAccess, hA, if_pos h0])
      · exact .inr ⟨true, s.sp - 1, by simp only [dataAccess, hA, if_neg h0, toNat_sub_one h0]⟩
    · exact .inl (by simp only [dataAccess, hA])
  | pop A =>
    rcases reg_cases A with ⟨a, -, hA⟩ | ⟨-, hA⟩
    · exact .inr ⟨false, s.sp, by simp only [dataAccess, hA]⟩
    · exact .inl (by simp only [dataAccess, hA])
  | ret =>
    by_cases h0 : s.sp = 255
    · exact .inl (if_pos h0)
    · exact .inr ⟨false, s.sp, if_neg h0⟩
  | st A B =>
    rcases reg_cases A with ⟨a, -, hA⟩ | ⟨-, hA⟩
    · rcases reg_cases B with ⟨b, -, hB⟩ | ⟨-, hB⟩
      · exact .inr ⟨true, s.x a, by simp only [dataAccess, hA, hB, State.address]⟩
      · exact .inl (by simp only [dataAccess, hA, hB])
    · exact .inl (by simp only [dataAccess, hA])
  | ld A B =>
    rcases reg_cases A with ⟨a, -, hA⟩ | ⟨-, hA⟩
    · rcases reg_cases B with ⟨b, -, hB⟩ | ⟨-, hB⟩
      · exact .inr ⟨false, s.x b, by simp only [dataAccess, hA, hB, State.address]⟩
      · exact .inl (by simp only [dataAccess, hA, hB])
    · exact .inl (by simp only [dataAccess, hA])
  | _ => exact .inl rfl

/-- The operand fetches are at the addresses after the opcode byte, at most two and as many as lie in the 256 cells. -/
theorem operandAccesses_eq_map_range {pc0 : Nat} (hp : pc0 ≤ 255) (op : Byte) :
    ∃ k, k ≤ 2 ∧ pc0 + k ≤ 255 ∧
      operandAccesses pc0 op = (List.range k).map fun j => ⟨.operandFetch, false, pc0 + 1 + j⟩ := by
  cases ho : Opcode.ofByte op with
  | none => exact ⟨0, by omega, hp, by simp only [operandAccesses, ho, List.range_zero, List.map_nil]⟩
  | some o =>
    have hcount : operandCount op ≤ 2 := by
      rw [← Opcode.ofByte_eq_some.mp ho, o.operandCount_byte]
      exact o.format.operands_le
    have hfilter : (List.range (operandCount op)).filter (fun k => decide (pc0 + 1 + k < Config.memSize)) =
        List.range (min (operandCount op) (255 - pc0)) := by
      rw [← List.Ico.zero_bot, ← List.Ico.zero_bot, ← List.Ico.filter_lt]
      exact List.filter_congr fun k _ => decide_eq_decide.mpr (by simp only [Config.memSize]; omega)
    exact ⟨min (operandCount op) (255 - pc0), by omega, by omega, by simp only [operandAccesses, ho, hfilter]⟩

/-- A step makes no access, or its fetches and then the data access of an instruction or none. -/
theorem State.accesses_cases (s : State) :
    s.accesses = [] ∨ s.pc.toNat ≤ 255 ∧ ∃ data, (data = [] ∨ ∃ i, data = dataAccess i s) ∧
      s.accesses = ⟨.opcodeFetch, false, s.pc.toNat⟩ ::
        (operandAccesses s.pc.toNat (s.mem.read s.pc.toNat) ++ data) := by
  by_cases hr : s.run = .running
  · by_cases hp : s.pc.toNat ≤ 255
    · cases hf : s.fetchInstr s.pc.toNat (s.mem.read s.pc.toNat) with
      | error e => exact .inr ⟨hp, [], .inl rfl, by rw [State.accesses_of_fetchInstr_error hr hp hf, List.append_nil]⟩
      | ok i => exact .inr ⟨hp, _, .inr ⟨i, rfl⟩, State.accesses_of_fetchInstr_ok hr hp hf⟩
    · exact .inl (State.accesses_of_pc_gt (by omega))
  · exact .inl (State.accesses_of_not_running hr)

end Sys2Proof.Machine
end

section
/-! PROOFS. The step where the bytes of an instruction stand from pc on (40_step_cycle.md R113 to R116). -/

namespace Sys2Proof.Machine

variable {s : State} {i : Instr}

/-- An instruction is made of its opcode and its operand bytes; the bytes it does not have are not looked at. -/
theorem instr_opcode_operandBytes (i : Instr) :
    i.opcode.instr (i.operandBytes.getD 0 0) (i.operandBytes.getD 1 0) = i := by
  cases i <;> rfl

theorem memRead_of_codeAt {bs : List Byte} (h : CodeAt s bs) {k : Nat} (hk : k < bs.length) :
    s.memRead (s.pc.toNat + k) = .ok bs[k] := by
  obtain ⟨hfit, hbytes⟩ := h
  rw [s.memRead_of_lt (by omega), hbytes k hk]

/-- Where the encoding of i stands from pc on, i is fetched. -/
theorem fetchInstr_of_codeAt (h : CodeAt s (encode i)) : s.fetchInstr s.pc.toNat i.opcode.byte = .ok i := by
  have hcount : operandCount i.opcode.byte = i.operandBytes.length := by
    rw [Opcode.operandCount_byte, Instr.length_operandBytes]
  have hlen : i.operandBytes.length ≤ 2 := i.length_operandBytes ▸ i.opcode.format.operands_le
  have hread : ∀ k (hk : k < i.operandBytes.length), s.memRead (s.pc.toNat + (k + 1)) = .ok i.operandBytes[k] :=
    fun k hk => memRead_of_codeAt h (k := k + 1) (Nat.succ_lt_succ hk)
  have hi := instr_opcode_operandBytes i
  rw [State.fetchInstr, Opcode.ofByte_byte, hcount]
  generalize i.operandBytes = bs at hlen hread hi
  match bs with
  | [] => exact congrArg Except.ok hi
  | [A] =>
    simp only [List.length_singleton, hread 0 Nat.one_pos]
    exact congrArg Except.ok hi
  | [A, B] =>
    have hA := hread 0 Nat.two_pos
    have hB := hread 1 Nat.one_lt_two
    simp only [List.length_cons, List.length_nil, hA, hB]
    exact congrArg Except.ok hi
  | _ :: _ :: _ :: _ =>
    simp only [List.length_cons] at hlen
    omega

/-- Where the encoding of i stands from pc on, the step of a running machine executes i with pc advanced past it. -/
theorem step_of_codeAt (hr : s.run = .running) (h : CodeAt s (encode i)) :
    step s = exec i (s.setPc (BitVec.ofNat 9 (s.pc.toNat + i.length))) := by
  obtain ⟨hfit, hbytes⟩ := h
  obtain ⟨-, hlen, -⟩ := Laws.EncodeShape.of_format i
  change i.length = 1 + operandCount i.opcode.byte at hlen
  change s.pc.toNat + i.length ≤ 256 at hfit
  have hp : s.pc.toNat ≤ 255 := by omega
  have hop : s.mem.read s.pc.toNat = i.opcode.byte := hbytes 0 (Nat.succ_pos _)
  have hpc : (s.advance i.opcode.byte).pc = BitVec.ofNat 9 (s.pc.toNat + i.length) := by
    have hadv := s.toNat_pc_advance i.opcode.byte hp
    rw [Nat.add_assoc, ← hlen] at hadv
    rw [← hadv, BitVec.ofNat_toNat, BitVec.setWidth_eq]
  rw [step_of_fetchInstr_ok hr hp (hop.symm ▸ fetchInstr_of_codeAt ⟨hfit, hbytes⟩), hop, ← hpc]
  rfl

end Sys2Proof.Machine
end

section
/-! PROOFS. The statements about the memory arbiter's order and the fetch after a store (20_memory.md R63, R66). -/

namespace Sys2Proof

open Machine

/-- Settles O20: the operand fetches are a range of addresses after pc and the data access is one at most, at an 8-bit address. -/
theorem accessesFollowTheFixedOrder : Obligations.AccessesFollowTheFixedOrder := by
  intro s
  rcases s.accesses_cases with hacc | ⟨hp, data, hdata, hacc⟩
  · rw [hacc]
    exact ⟨by simp, .inl rfl⟩
  · obtain ⟨k, hk, hlast, hops⟩ := operandAccesses_eq_map_range hp (s.mem.read s.pc.toNat)
    have hdata : data = [] ∨ ∃ (w : Bool) (v : Byte), data = [⟨.dataAccess, w, v.toNat⟩] := by
      rcases hdata with rfl | ⟨i, rfl⟩
      · exact .inl rfl
      · exact dataAccess_cases i s
    rw [hops] at hacc
    refine ⟨fun acc hmem => ?_, .inr ⟨k, data, hk, ?_, ?_, hacc⟩⟩
    · rw [hacc, List.mem_cons, List.mem_append] at hmem
      rcases hmem with rfl | hmem | hmem
      · exact Nat.lt_succ_of_le hp
      · obtain ⟨j, hj, rfl⟩ := List.mem_map.mp hmem
        have := List.mem_range.mp hj
        simp only
        omega
      · rcases hdata with rfl | ⟨w, v, rfl⟩
        · cases hmem
        · rw [List.mem_singleton.mp hmem]
          exact v.isLt
    · rcases hdata with rfl | ⟨w, v, rfl⟩ <;> simp
    · rcases hdata with rfl | ⟨w, v, rfl⟩ <;> simp

/-- Settles O54: the opcode fetch of the next step reads the memory that the store left. -/
theorem nextFetchSeesStore : Obligations.NextFetchSeesStore := by
  intro s A B a b hr hcode hp ha hb
  have hstep : step s = exec (.st A B) (s.setPc (BitVec.ofNat 9 (s.pc.toNat + 3))) := step_of_codeAt hr hcode
  rw [exec_st ha hb] at hstep
  have hpc : (BitVec.ofNat 9 (s.pc.toNat + 3)).toNat = s.pc.toNat + 3 := by
    rw [BitVec.toNat_ofNat, Nat.mod_eq_of_lt (by omega)]
  refine ⟨_, hstep, hpc, ?_⟩
  rw [State.fetchOpcode_of_le (hpc.trans_le hp)]
  simp [hpc, eq_comm (a := (s.x a).toNat)]

end Sys2Proof
end

section
/-! PROOFS. The opcode map, and the decoder on an encoding and on what it accepts (30_encoding.md R80 to R91). -/

namespace Sys2Proof

/-- The operand count is bits 7:6 as a number (30_encoding.md R82). -/
theorem operandCount_eq_div (b : Byte) : operandCount b = b.toNat / 64 := by
  have hmask : (3#8 : Byte).toNat = 2 ^ 2 - 1 := rfl
  rw [operandCount, BitVec.toNat_and, BitVec.toNat_ushiftRight, Nat.shiftRight_eq_div_pow, hmask,
    Nat.and_two_pow_sub_one_eq_mod]
  have := b.isLt
  omega

theorem Opcode.byte_injective : Function.Injective Opcode.byte := fun o p h => by
  have ho := o.ofByte_byte
  rw [h, p.ofByte_byte] at ho
  exact (Option.some.inj ho).symm

/-- The low six bits alone tell the opcodes apart (30_encoding.md R90). -/
theorem Opcode.low_bits_injective : Function.Injective fun o : Opcode => o.byte.toNat % 64 := fun o p h =>
  List.inj_on_of_nodup_map (f := fun o : Opcode => o.byte.toNat % 64) (l := Opcode.all) (by decide) o.mem_all p.mem_all h

/-- An opcode byte and as many bytes as its format has operands decode to the instruction of that opcode and those operands. -/
theorem decode_byte_append (op : Opcode) {bs : List Byte} (hlen : bs.length = op.format.operands) (rest : List Byte) :
    decode (op.byte :: (bs ++ rest)) = .ok (op.instr (bs.getD 0 0) (bs.getD 1 0), rest) := by
  have hle : bs.length ≤ 2 := hlen ▸ op.format.operands_le
  rw [decode, op.ofByte_byte]
  simp only [← hlen]
  match bs with
  | [] => rfl
  | [_] => rfl
  | [_, _] => rfl
  | _ :: _ :: _ :: _ =>
    simp only [List.length_cons] at hle
    omega

/-- What the decoder accepts begins with an opcode byte and the operand bytes of its format. -/
theorem decode_eq_ok {bs rest : List Byte} {i : Instr} (h : decode bs = .ok (i, rest)) :
    ∃ (op : Opcode) (A B : Byte), i = op.instr A B ∧ bs = op.byte :: ([A, B].take op.format.operands ++ rest) := by
  unfold decode at h
  split at h
  · cases h
  · split at h
    · cases h
    · rename_i op ho
      obtain rfl := Opcode.ofByte_eq_some.mp ho
      split at h
      · rename_i hn
        cases h
        exact ⟨op, 0, 0, rfl, by rw [hn]; rfl⟩
      · rename_i A _ hn
        cases h
        exact ⟨op, A, 0, rfl, by rw [hn]; rfl⟩
      · rename_i A B _ hn
        cases h
        exact ⟨op, A, B, rfl, by rw [hn]; rfl⟩
      · cases h

/-- Settles O21: an encoding is an opcode byte and as many operand bytes as its format has. -/
theorem decodeOfEncode : Obligations.DecodeOfEncode := by
  intro i rest
  have h := decode_byte_append i.opcode i.length_operandBytes rest
  rwa [Machine.instr_opcode_operandBytes] at h

/-- Settles O22: the bytes accepted are the opcode byte and the operand bytes of the instruction answered. -/
theorem encodeOfDecode : Obligations.EncodeOfDecode := by
  intro bs rest i h
  obtain ⟨op, A, B, rfl, rfl⟩ := decode_eq_ok h
  rw [encode, Opcode.opcode_instr, Opcode.operandBytes_instr, List.cons_append]

/-- Settles O23: each word is the encoding of its instruction, and JLE's is followed by one more byte. -/
theorem decodedWords : Obligations.DecodedWords :=
  ⟨decodeOfEncode (.ldi 0 8) [], decodeOfEncode (.prn 2) [], decodeOfEncode (.mod 0 1) [], decodeOfEncode (.shr 3 4) [],
    decodeOfEncode (.cmp 5 6) [], decodeOfEncode (.pop 7) [], decodeOfEncode (.jle 2) [0x01], decodeOfEncode (.st 4 0) [],
    decodeOfEncode .hlt [], decodeOfEncode (.int 0xFF) []⟩

/-- Settles O24: a byte is its bits 7:6, which for an opcode are the operand count, and its low six bits. -/
theorem opcodeMapIsSound : Obligations.OpcodeMapIsSound := by
  have hcount : ∀ o : Opcode, o.byte.toNat / 64 = o.format.operands := fun o => by
    rw [← operandCount_eq_div, o.operandCount_byte]
  refine ⟨fun _ _ h => Opcode.byte_injective h, fun o => ⟨hcount o, ?_⟩, fun _ _ h => Opcode.low_bits_injective h,
    fun o b => ?_, fun i => ?_⟩
  · have := o.format.operands_le
    have := hcount o
    omega
  · have := hcount o
    rw [← BitVec.toNat_inj]
    omega
  · rw [hcount, ← i.length_operandBytes]
    exact Nat.add_comm _ _

end Sys2Proof
end

section
/-! PROOFS. The step at a byte that is no opcode (30_encoding.md R91). -/

namespace Sys2Proof

open Machine

/-- The 34 opcode bytes in rising order (30_encoding.md R88). -/
def legalBytes : List Byte :=
  [0x00, 0x01, 0x11, 0x13, 0x45, 0x46, 0x47, 0x48, 0x50, 0x52, 0x54, 0x55, 0x56, 0x57, 0x58, 0x59, 0x5A, 0x65, 0x66,
    0x69, 0x82, 0x83, 0x84, 0xA0, 0xA1, 0xA2, 0xA3, 0xA4, 0xA7, 0xA8, 0xAA, 0xAB, 0xAC, 0xAD]

theorem mem_legalBytes {b : Byte} : b ∈ legalBytes ↔ ∃ op : Opcode, op.byte = b := by
  have hperm : legalBytes.Perm (Opcode.all.map Opcode.byte) := by decide
  rw [hperm.mem_iff, List.mem_map]
  exact ⟨fun ⟨op, _, h⟩ => ⟨op, h⟩, fun ⟨op, h⟩ => ⟨op, op.mem_all, h⟩⟩

/-- The other 222 of the 256 byte values are illegal (30_encoding.md R91). -/
theorem length_illegalBytes :
    ((List.range 256).filter fun n => decide (BitVec.ofNat 8 n ∉ legalBytes)).length = 222 := by
  decide +kernel

theorem ofByte_eq_none_iff_not_mem {b : Byte} : Opcode.ofByte b = none ↔ b ∉ legalBytes := by
  rw [Opcode.ofByte_eq_none, mem_legalBytes, not_exists]

/-- An illegal byte raises IllegalInstruction at the lookup (40_step_cycle.md R114). -/
theorem fetchInstr_of_ofByte_none {op : Byte} (hop : Opcode.ofByte op = none) (s : State) (pc0 : Nat) :
    s.fetchInstr pc0 op = .error ⟨.illegalInstruction, some op.toNat⟩ := by
  rw [State.fetchInstr, hop]

/-- An illegal byte fetches no operand (20_memory.md R66). -/
theorem operandAccesses_of_ofByte_none {op : Byte} (hop : Opcode.ofByte op = none) (pc0 : Nat) :
    operandAccesses pc0 op = [] := by
  rw [operandAccesses, hop]

/-- Settles O7: the legal bytes are the opcodes' bytes, and at any other the lookup raises after the advance. -/
theorem illegalOpcodeFaults : Obligations.IllegalOpcodeFaults := by
  refine ⟨legalBytes, rfl, length_illegalBytes, fun b hb hmem => ?_, fun b => ofByte_eq_none_iff_not_mem,
    fun s hr hp hmem => ?_⟩
  · have hlt : ∀ b ∈ legalBytes, b.toNat < 0xC0 := by decide
    exact absurd hb (hlt b hmem).not_ge
  · have hop := ofByte_eq_none_iff_not_mem.mpr hmem
    have hf := fetchInstr_of_ofByte_none hop s s.pc.toNat
    refine ⟨_, step_of_fetchInstr_error hr hp hf, rfl, ?_, fun _ _ => rfl, fun _ => rfl, rfl, rfl, ?_⟩
    · rw [State.pc_raise, s.toNat_pc_advance _ hp, operandCount_eq_div]
    · rw [State.accesses_of_fetchInstr_error hr hp hf, operandAccesses_of_ofByte_none hop]

end Sys2Proof
end

section
/-! PROOFS. Which instructions raise InvalidRegister (30_encoding.md R85, R93; 60_exceptions.md R243). -/

namespace Sys2Proof.Machine

/-- What a rule leaves whose register operands are legal: it raises another fault than InvalidRegister, or keeps the run state. -/
def KeepsRunOrRaisesOther (s : State) : Except Raised State → Prop
  | .ok t => t.run = s.run
  | .error e => e.kind ≠ .invalidRegister

theorem run_of_takes {k : Fault} {s t : State} (h : Takes k s (.next t)) : t.run = .faulted k := by
  cases h
  rfl

theorem KeepsRunOrRaisesOther.bind {s : State} {x : Except Raised State} {f : State → Except Raised State}
    (hx : KeepsRunOrRaisesOther s x) (hf : ∀ t, t.run = s.run → KeepsRunOrRaisesOther s (f t)) :
    KeepsRunOrRaisesOther s (x >>= f) := by
  cases x with
  | ok t => exact hf t hx
  | error e => exact hx

/-- A push raises StackOverflow at most. -/
theorem keepsRunOrRaisesOther_stackPush (s : State) (v : State → Int) : KeepsRunOrRaisesOther s (s.stackPush v) := by
  by_cases h : s.sp = 0
  · rw [State.stackPush_zero h]
    exact Fault.noConfusion
  · rw [State.stackPush_pos h]
    exact rfl

/-- The increment of a pop raises StackUnderflow at most. -/
theorem keepsRunOrRaisesOther_spInc_bind {s : State} {b : Byte} {f : Byte → Except Raised State}
    (hf : ∀ w, KeepsRunOrRaisesOther s (f w)) : KeepsRunOrRaisesOther s (spInc b >>= f) := by
  by_cases h : b = 255
  · rw [h, spInc_top]
    exact Fault.noConfusion
  · rw [spInc_of_ne h]
    exact hf (b + 1)

section
variable {s : State} (hs : s.run ≠ .faulted .invalidRegister)
include hs

theorem not_takes_finish {r : Except Raised State} (hr : KeepsRunOrRaisesOther s r) :
    ¬ Takes .invalidRegister s (s.finish r) := by
  intro h
  cases r with
  | ok t => exact hs (hr ▸ run_of_takes h)
  | error e => exact hr (RunState.faulted.inj (run_of_takes h))

theorem badOperand_iff_takes_onReg {A : Byte} {f : RegIdx → Except Raised State} (hf : ∀ a, KeepsRunOrRaisesOther s (f a)) :
    7 < A.toNat ↔ Takes .invalidRegister s (onReg A s f) := by
  rcases reg_cases A with ⟨a, ha, -⟩ | ⟨hA, -⟩
  · rw [onReg_names ha]
    exact iff_of_false (by omega) (not_takes_finish hs (hf a))
  · rw [onReg_gt hA]
    exact iff_of_true hA rfl

theorem badOperand_iff_takes_onRegs {A B : Byte} {f : RegIdx → RegIdx → Except Raised State}
    (hf : ∀ a b, KeepsRunOrRaisesOther s (f a b)) :
    7 < A.toNat ∨ 7 < B.toNat ↔ Takes .invalidRegister s (onRegs A B s f) := by
  by_cases hbad : 7 < A.toNat ∨ 7 < B.toNat
  · rw [onRegs_gt hbad]
    exact iff_of_true hbad rfl
  · rw [onRegs_names (a := ⟨A.toNat, by omega⟩) (b := ⟨B.toNat, by omega⟩) rfl rfl]
    exact iff_of_false hbad (not_takes_finish hs (hf _ _))

/-- The two-operand ALU form, whose operation can raise DivisionByZero at most. -/
theorem badOperand_iff_takes_alu2 {op : Byte → Byte → Except Raised Byte} {A B : Byte}
    (hop : ∀ p q, (∃ v, op p q = .ok v) ∨ op p q = .error ⟨.divisionByZero, none⟩) :
    7 < A.toNat ∨ 7 < B.toNat ↔ Takes .invalidRegister s (alu2 op A B s) := by
  refine badOperand_iff_takes_onRegs hs fun a b => ?_
  rcases hop (s.x a) (s.x b) with ⟨v, hv⟩ | hv <;> rw [hv]
  · exact rfl
  · exact Fault.noConfusion

theorem badOperand_iff_takes_jumpIf {c : Byte → Bool} {A : Byte} : 7 < A.toNat ↔ Takes .invalidRegister s (jumpIf c A s) := by
  refine badOperand_iff_takes_onReg hs fun a => ?_
  split
  · exact rfl
  · exact rfl

end

theorem aluDiv_cases (p q : Byte) : (∃ v, aluDiv p q = .ok v) ∨ aluDiv p q = .error ⟨.divisionByZero, none⟩ := by
  by_cases h : q = 0
  · exact .inr (if_pos h)
  · exact .inl ⟨_, if_neg h⟩

theorem aluMod_cases (p q : Byte) : (∃ v, aluMod p q = .ok v) ∨ aluMod p q = .error ⟨.divisionByZero, none⟩ := by
  by_cases h : q = 0
  · exact .inr (if_pos h)
  · exact .inl ⟨_, if_neg h⟩

end Sys2Proof.Machine

namespace Sys2Proof

open Machine

/-- Settles O9: a bad operand is checked before anything else, and past the checks no rule raises InvalidRegister. -/
theorem invalidRegisterExactlyOnBadOperand : Obligations.InvalidRegisterExactlyOnBadOperand := by
  intro i s hs
  cases i <;> simp only [Instr.regOperands, List.mem_cons, List.not_mem_nil, or_false, exists_eq_or_imp, exists_eq_left,
    false_and, exists_false, false_iff]
  case ldi | prn | pra | inc | dec | not | jmp => exact badOperand_iff_takes_onReg hs fun _ => rfl
  case jeq | jne | jgt | jlt | jge | jle => exact badOperand_iff_takes_jumpIf hs
  case add | sub | mul | and | or | xor | shl | shr => exact badOperand_iff_takes_alu2 hs fun _ _ => .inl ⟨_, rfl⟩
  case div => exact badOperand_iff_takes_alu2 hs aluDiv_cases
  case mod => exact badOperand_iff_takes_alu2 hs aluMod_cases
  case cmp => exact badOperand_iff_takes_onRegs hs fun _ _ => rfl
  case st =>
    refine badOperand_iff_takes_onRegs hs fun a b => ?_
    rw [State.address, State.memWrite_byte]
    exact rfl
  case ld =>
    refine badOperand_iff_takes_onRegs hs fun a b => ?_
    rw [State.address, State.memRead_byte]
    exact rfl
  case push => exact badOperand_iff_takes_onReg hs fun _ => keepsRunOrRaisesOther_stackPush s _
  case call => exact badOperand_iff_takes_onReg hs fun _ => (keepsRunOrRaisesOther_stackPush s _).bind fun _ ht => ht
  case pop =>
    refine badOperand_iff_takes_onReg hs fun a => ?_
    rw [State.memRead_byte]
    exact keepsRunOrRaisesOther_spInc_bind fun _ => rfl
  case ret =>
    refine not_takes_finish hs (keepsRunOrRaisesOther_spInc_bind fun _ => ?_)
    rw [State.memRead_byte]
    exact rfl
  case nop | int | iret => exact fun h => hs (run_of_takes h)
  case hlt => exact fun h => RunState.noConfusion (run_of_takes h)

end Sys2Proof
end

section
/-! PROOFS. Every instruction and every step answers a next state, and what the host sees of a step and of a run
(40_step_cycle.md R117, R118, R120). -/

namespace Sys2Proof.Machine

/-- Every instruction's rule ends by finish, or answers the state as it is or halted. -/
theorem exists_exec_eq_next (i : Instr) (s : State) : ∃ t, exec i s = .next t := by
  have hfinish : ∀ r, ∃ t, s.finish r = .next t := fun r => by
    rcases s.finish_cases r with ⟨t, -, ht⟩ | ⟨e, -, ht⟩
    · exact ⟨t, ht⟩
    · exact ⟨s.raise e, ht⟩
  cases i with
  | nop | int | iret => exact ⟨s, rfl⟩
  | hlt => exact ⟨s.setRun .halted, rfl⟩
  | _ => exact hfinish _

theorem exists_step_eq_next (s : State) : ∃ t, step s = .next t := by
  rcases step_cases s with ⟨-, hs⟩ | ⟨-, -, hs⟩ | ⟨-, -, op, -, ⟨e, -, hs⟩ | ⟨i, -, hs⟩⟩ <;> rw [hs]
  · exact ⟨s, rfl⟩
  · exact ⟨_, rfl⟩
  · exact ⟨_, rfl⟩
  · exact exists_exec_eq_next i (s.advance op)

theorem State.afterStep_of_step {s t : State} (h : step s = .next t) : s.afterStep = t := by
  rw [State.afterStep, h]

/-- The step answers afterStep in every state: its other outcomes do not occur. -/
theorem step_eq_next_afterStep (s : State) : step s = .next s.afterStep := by
  obtain ⟨t, ht⟩ := exists_step_eq_next s
  rw [State.afterStep_of_step ht, ht]

theorem State.afterStep_of_ended {s : State} (h : Ended s) : s.afterStep = s :=
  State.afterStep_of_step (step_of_not_running h)

@[simp] theorem State.runSteps_zero (s : State) : s.runSteps 0 = s := rfl

theorem State.runSteps_of_ended {s : State} (h : Ended s) (n : Nat) : s.runSteps n = s := by
  cases n with
  | zero => rfl
  | succ n => exact if_neg h

/-- A run of one step more begins with a step; from an ended state that step changes nothing. -/
@[simp] theorem State.runSteps_succ (s : State) (n : Nat) : s.runSteps (n + 1) = s.afterStep.runSteps n := by
  by_cases h : s.run = .running
  · exact if_pos h
  · rw [State.runSteps_of_ended h, State.afterStep_of_ended h, State.runSteps_of_ended h]

theorem State.runSteps_add (m n : Nat) (s : State) : s.runSteps (m + n) = (s.runSteps m).runSteps n := by
  induction m generalizing s with
  | zero => rw [Nat.zero_add, State.runSteps_zero]
  | succ m ih => rw [Nat.succ_add, State.runSteps_succ, State.runSteps_succ, ih]

end Sys2Proof.Machine
end

section
/-! PROOFS. The fetch of an opcode byte by where its last operand byte lies, and the code at pc that the decoder accepts
(40_step_cycle.md R113 to R116). -/

namespace Sys2Proof.Machine

variable {s : State}

theorem State.advance_eq (s : State) (op : Byte) :
    s.advance op = { s with pc := BitVec.ofNat 9 (s.pc.toNat + 1 + op.toNat / 64) } := by
  rw [State.advance, State.setPc, operandCount_eq_div, BitVec.ofNat_add, BitVec.ofNat_add, BitVec.ofNat_toNat,
    BitVec.setWidth_eq]
  rfl

/-- A fault of the lookup or of an operand fetch is taken with pc advanced (60_exceptions.md R253). -/
theorem takes_step_of_fetchInstr_error {e : Raised} (hr : s.run = .running) (hp : s.pc.toNat ≤ 255)
    (hf : s.fetchInstr s.pc.toNat (s.mem.read s.pc.toNat) = .error e) :
    Takes e.kind { s with pc := BitVec.ofNat 9 (s.pc.toNat + 1 + (s.mem.read s.pc.toNat).toNat / 64) } (step s) := by
  rw [step_of_fetchInstr_error hr hp hf, State.advance_eq]
  rfl

/-- Where the last operand byte lies above 255, an operand fetch raises OutOfBounds (40_step_cycle.md R115). -/
theorem State.fetchInstr_outOfBounds (s : State) {pc0 : Nat} (hp : pc0 ≤ 255) {o : Opcode}
    (h : 255 < pc0 + o.format.operands) : ∃ info, s.fetchInstr pc0 o.byte = .error ⟨.outOfBounds, info⟩ := by
  have hle := o.format.operands_le
  rw [State.fetchInstr, Opcode.ofByte_byte, Opcode.operandCount_byte]
  generalize o.format.operands = n at h hle
  match n with
  | 0 => omega
  | 1 =>
    rw [s.memRead_of_ge h]
    exact ⟨_, rfl⟩
  | 2 =>
    rcases hp.eq_or_lt with rfl | hlt
    · exact ⟨_, rfl⟩
    · rw [s.memRead_of_lt (Nat.succ_lt_succ hlt), s.memRead_of_ge h]
      exact ⟨_, rfl⟩
  | _ + 3 => omega

theorem length_instr (o : Opcode) (A B : Byte) : (o.instr A B).length = 1 + o.format.operands := by
  cases o <;> rfl

/-- An opcode byte at pc whose operand bytes fit below 256 stands there as the encoding of an instruction. -/
theorem codeAt_encode_instr {o : Opcode} (ho : o.byte = s.mem.read s.pc.toNat) (h : s.pc.toNat + o.format.operands ≤ 255) :
    CodeAt s (encode (o.instr (s.mem.read (s.pc.toNat + 1)) (s.mem.read (s.pc.toNat + 2)))) := by
  have hle := o.format.operands_le
  rw [encode, Opcode.opcode_instr, Opcode.operandBytes_instr]
  refine ⟨?_, fun k hk => ?_⟩
  · simp
    omega
  · match k with
    | 0 => exact ho.symm
    | 1 => simp
    | 2 => simp
    | k + 3 => simp at hk

/-- Bytes that the code at pc begins with stand in memory from pc on. -/
theorem codeAt_of_codeBytes_eq_append {bs rest : List Byte} (hne : bs ≠ []) (h : s.codeBytes = bs ++ rest) : CodeAt s bs := by
  have hpos := List.length_pos_of_ne_nil hne
  have hlen := congrArg List.length h
  simp only [State.codeBytes, Memory.bytes, List.length_map, List.length_range, List.length_append, Config.memSize] at hlen
  refine ⟨by omega, fun k hk => ?_⟩
  have hget : s.codeBytes[k]? = some bs[k] := by
    rw [h, List.getElem?_append_left hk, List.getElem?_eq_getElem hk]
  simpa [State.codeBytes, Memory.bytes, Config.memSize, show k < 256 - s.pc.toNat by omega] using hget

end Sys2Proof.Machine
end

section
/-! PROOFS. What each act of the host does, and when it is a move (70_reset_and_hazards.md R276 to R283). -/

namespace Sys2Proof.Machine

variable {memInit : Memory} {v w : Session} {reply : HostReply}

theorem State.load_of_le {s : State} {program : List Byte} (h : program.length ≤ 256) :
    s.load program = .ok (s.setMem (s.mem.writeBytes 0 program)) :=
  if_pos h

theorem State.load_of_gt {s : State} {program : List Byte} (h : 256 < program.length) :
    s.load program = .error ⟨.outOfBounds, some 256⟩ :=
  if_neg h.not_ge

/-- The load of a fresh session opens it to steps, or spoils it where the program is too long (R278). -/
theorem hostAct_load_eq_some {program : List Byte} :
    hostAct memInit v (.load program) = some (w, reply) ↔
      v.phase = .fresh ∧
        (program.length ≤ 256 ∧ v.core.load program = .ok w.core ∧ w.phase = .loaded ∧ reply = .done ∨
          256 < program.length ∧ w = ⟨v.core, .spoiled⟩ ∧ reply = .error .outOfBounds) := by
  obtain ⟨core, phase⟩ := v
  obtain ⟨core', phase'⟩ := w
  cases phase with
  | loaded | spoiled => simp [hostAct]
  | fresh =>
    rcases Nat.lt_or_ge 256 program.length with h | h
    · simp [hostAct, State.load_of_gt h, h, h.not_ge, eq_comm]
    · simp [hostAct, State.load_of_le h, h, h.not_gt, and_assoc, eq_comm]

/-- A load is a move of a fresh session, whatever its length. -/
theorem exists_hostAct_load_iff {program : List Byte} :
    (∃ w reply, hostAct memInit v (.load program) = some (w, reply)) ↔ v.phase = .fresh := by
  simp only [hostAct_load_eq_some]
  refine ⟨fun ⟨_, _, hv, _⟩ => hv, fun hv => ?_⟩
  rcases Nat.lt_or_ge 256 program.length with h | h
  · exact ⟨_, _, hv, .inr ⟨h, rfl, rfl⟩⟩
  · exact ⟨⟨_, .loaded⟩, _, hv, .inl ⟨h, State.load_of_le h, rfl, rfl⟩⟩

theorem hostAct_step_eq_some :
    hostAct memInit v .step = some (w, reply) ↔
      v.phase = .loaded ∧ w = ⟨v.core.afterStep, .loaded⟩ ∧ reply = .status v.core.afterStep.run := by
  obtain ⟨core, phase⟩ := v
  cases phase with
  | loaded => simp [hostAct, eq_comm]
  | fresh | spoiled => simp [hostAct]

theorem hostAct_run_eq_some {limit : Nat} :
    hostAct memInit v (.run limit) = some (w, reply) ↔
      v.phase = .loaded ∧ w = ⟨v.core.runSteps limit, .loaded⟩ ∧ reply = runReply (v.core.runSteps limit) := by
  obtain ⟨core, phase⟩ := v
  cases phase with
  | loaded => simp [hostAct, eq_comm]
  | fresh | spoiled => simp [hostAct]

theorem runReply_cases (s : State) :
    s.run = .running ∧ runReply s = .cutOff ∨ s.run = .halted ∧ runReply s = .state s ∨
      ∃ k, s.run = .faulted k ∧ runReply s = .error k := by
  unfold runReply
  cases s.run with
  | running => exact .inl ⟨rfl, rfl⟩
  | halted => exact .inr (.inl ⟨rfl, rfl⟩)
  | faulted k => exact .inr (.inr ⟨k, rfl, rfl⟩)

end Sys2Proof.Machine
end

section
/-! PROOFS. The statements about the step cycle, the run and the host's moves (40_step_cycle.md R113 to R120;
70_reset_and_hazards.md R280). -/

namespace Sys2Proof

open Machine

/-- Settles O4: the fetch of the bytes at pc either raises, or reads the encoding of an instruction that stands there. -/
theorem stepInFull : Obligations.StepInFull := by
  intro s
  refine ⟨step_of_not_running, step_of_pc_gt, fun hr hp op n t hop hn ht => ?_⟩
  subst hop hn ht
  refine ⟨fun hno => takes_step_of_fetchInstr_error hr hp
    (fetchInstr_of_ofByte_none (Opcode.ofByte_eq_none.mpr hno) s s.pc.toNat), fun o ho => ?_⟩
  have hcount : (s.mem.read s.pc.toNat).toNat / 64 = o.format.operands := by
    rw [← ho, ← operandCount_eq_div, o.operandCount_byte]
  have hout : 255 < s.pc.toNat + o.format.operands → Takes .outOfBounds
      { s with pc := BitVec.ofNat 9 (s.pc.toNat + 1 + (s.mem.read s.pc.toNat).toNat / 64) } (step s) := fun h => by
    obtain ⟨info, hf⟩ := s.fetchInstr_outOfBounds hp h
    exact takes_step_of_fetchInstr_error hr hp (ho ▸ hf)
  refine ⟨fun _ _ => hout (by omega), fun _ _ => hout (by omega), fun hfit => ?_⟩
  rw [hcount] at hfit ⊢
  rw [step_of_codeAt hr (codeAt_encode_instr ho hfit), length_instr, ← Nat.add_assoc]
  rfl

/-- Settles O5: what decodes at pc is the encoding of i, which stands in memory from pc on. -/
theorem stepRunsDecodedInstruction : Obligations.StepRunsDecodedInstruction := by
  intro s i rest hr hdec
  have hcode : CodeAt s (encode i) :=
    codeAt_of_codeBytes_eq_append (List.cons_ne_nil _ _) (encodeOfDecode _ _ _ hdec)
  have ⟨hfit, _⟩ := hcode
  change s.pc.toNat + i.length ≤ 256 at hfit
  have hpc : BitVec.ofNat 9 (s.pc.toNat + i.length) = s.pc + BitVec.ofNat 9 i.length := by
    rw [BitVec.ofNat_add, BitVec.ofNat_toNat, BitVec.setWidth_eq]
  rw [← hpc]
  refine ⟨step_of_codeAt hr hcode, ?_⟩
  rw [BitVec.toNat_ofNat, Nat.mod_eq_of_lt (by omega)]

/-- Settles O6, by the step of a state that is not Running. -/
theorem terminalStatesTakeNoStep : Obligations.TerminalStatesTakeNoStep :=
  fun _ h => ⟨step_of_not_running h, State.afterStep_of_ended h⟩

/-- Settles O10, by the ends of a step and of every instruction's rule. -/
theorem stepIsTotal : Obligations.StepIsTotal :=
  ⟨exists_step_eq_next, exists_exec_eq_next⟩

/-- Settles O58, by induction on the first run's steps. -/
theorem runIsRepeatedStep : Obligations.RunIsRepeatedStep :=
  ⟨State.runSteps_add, fun s => s.runSteps_succ 0, fun n _ h => State.runSteps_of_ended h n⟩

/-- Settles O59, act by act: a reset and a snapshot are always moves, and the other acts are told by the phase. -/
theorem hostChangesCoreOnlyByItsMoves : Obligations.HostChangesCoreOnlyByItsMoves := by
  refine ⟨fun memInit v w act reply h => ?_, fun memInit v act => ?_⟩
  · cases act with
    | reset =>
      cases h
      exact .inl ⟨rfl, rfl, rfl⟩
    | load program =>
      obtain ⟨hv, hload⟩ := hostAct_load_eq_some.mp h
      exact .inr (.inl ⟨hv, program, rfl, hload⟩)
    | step =>
      obtain ⟨hv, rfl, rfl⟩ := hostAct_step_eq_some.mp h
      exact .inr (.inr (.inl ⟨hv, rfl, step_eq_next_afterStep v.core, rfl, rfl⟩))
    | run limit =>
      obtain ⟨hv, rfl, rfl⟩ := hostAct_run_eq_some.mp h
      exact .inr (.inr (.inr (.inl ⟨hv, limit, rfl, rfl, runReply_cases _⟩)))
    | snapshot =>
      cases h
      exact .inr (.inr (.inr (.inr ⟨rfl, rfl, rfl⟩)))
  · cases act with
    | reset => exact iff_of_true ⟨_, _, rfl⟩ (.inl rfl)
    | snapshot => exact iff_of_true ⟨_, _, rfl⟩ (.inr (.inl rfl))
    | load program => simp [exists_hostAct_load_iff]
    | step => simp [hostAct_step_eq_some]
    | run limit => simp [hostAct_run_eq_some]

end Sys2Proof
end

section
/-! PROOFS. What the rules of one instruction each share: the bytes of the instruction, what a register write leaves, and the
bad operand (10_state.md R28, 30_encoding.md R85). -/

namespace Sys2Proof.Machine

/-- Each instruction's bytes are its encoding, and the generic advance is past all of them. -/
theorem encodedAs_of_encode_eq {i : Instr} {bs : List Byte} (h : encode i = bs) : EncodedAs i bs := by
  subst h
  exact ⟨rfl, fun _ hr hcode => step_of_codeAt hr hcode⟩

theorem sameRegsBut_setX (s : State) (a : RegIdx) (v : Byte) : SameRegsBut [a] s (s.setX a v) := fun r hr => by
  rw [State.x_setX, if_neg (List.ne_of_not_mem_cons hr)]

theorem takes_invalidRegister_onReg {A : Byte} (h : 7 < A.toNat) (s : State) (f : RegIdx → Except Raised State) :
    Takes .invalidRegister s (onReg A s f) :=
  onReg_gt h s f

end Sys2Proof.Machine
end

section
/-! PROOFS. Load immediate and output (41_load_immediate_and_output.md). -/

namespace Sys2Proof.Machine

theorem exec_ldi {A : Byte} {a : RegIdx} (ha : A.toNat = a.val) (B : Byte) (s : State) :
    exec (.ldi A B) s = .next (s.setX a B) :=
  onReg_names ha s _

/-- PRN and PRA are one rule, which the kind of the event tells apart. -/
theorem outputRule_of_exec {op : Byte} {mk : Byte → Instr} {event : Byte → Event}
    (hencode : ∀ A, encode (mk A) = [op, A])
    (hexec : ∀ A s, exec (mk A) s = onReg A s fun a => .ok (s.emit (event (s.x a)))) : OutputRule op mk event := by
  intro A s
  rw [hexec]
  refine ⟨encodedAs_of_encode_eq (hencode A), fun a ha => ?_, fun hA => takes_invalidRegister_onReg hA s _⟩
  exact ⟨s.emit (event (s.x a)), onReg_names ha s _, rfl, fun _ _ => rfl, fun _ => rfl, rfl, rfl, rfl⟩

end Sys2Proof.Machine

namespace Sys2Proof

open Machine

/-- Settles O25: the register write of LDI reaches register a alone. -/
theorem ldiLoadsImmediate : Obligations.LdiLoadsImmediate := by
  intro A B s
  refine ⟨encodedAs_of_encode_eq rfl, fun a ha => ?_, fun hA => takes_invalidRegister_onReg hA s _⟩
  have hx : (s.setX a B).x a = B := by rw [State.x_setX, if_pos rfl]
  exact ⟨s.setX a B, exec_ldi ha B s, hx, sameRegsBut_setX s a B, fun _ => rfl, rfl, rfl, rfl, rfl⟩

/-- Settles O26, by the rule of the output instructions. -/
theorem prnEmitsNumber : Obligations.PrnEmitsNumber :=
  ⟨outputRule_of_exec (fun _ => rfl) fun _ _ => rfl, fun _ => rfl⟩

/-- Settles O27, by the rule of the output instructions; a code up to 127 has a text (70_reset_and_hazards.md R282). -/
theorem praEmitsCharacter : Obligations.PraEmitsCharacter :=
  ⟨outputRule_of_exec (fun _ => rfl) fun _ _ => rfl, fun _ hv => if_pos (Nat.lt_succ_of_le hv)⟩

end Sys2Proof
end

section
/-! PROOFS. The two ALU forms: the register that the result goes to, and what an operation that answers or raises makes of the
instruction (42_alu_arithmetic.md R140). -/

namespace Sys2Proof.Machine

theorem State.x_setX_same (s : State) (a : RegIdx) (v : Byte) : (s.setX a v).x a = v := by
  rw [State.x_setX, if_pos rfl]

theorem takes_invalidRegister_onRegs {A B : Byte} (h : 7 < A.toNat ∨ 7 < B.toNat) (s : State)
    (f : RegIdx → RegIdx → Except Raised State) : Takes .invalidRegister s (onRegs A B s f) :=
  onRegs_gt h s f

/-- An instruction that writes register a alone leaves a value with every property of the written one, and the frame. -/
theorem exists_next_of_eq_setX {o : Host.Outcome State Fault Refusal} {s : State} {a : RegIdx} {v : Byte} (P : Byte → Prop)
    (ho : o = .next (s.setX a v)) (hv : P v) :
    ∃ t, o = .next t ∧ P (t.x a) ∧ SameRegsBut [a] s t ∧ SameMem s t ∧
      t.pc = s.pc ∧ t.fl = s.fl ∧ t.run = s.run ∧ t.events = s.events :=
  ⟨s.setX a v, ho, (s.x_setX_same a v).symm ▸ hv, sameRegsBut_setX s a v, fun _ => rfl, rfl, rfl, rfl, rfl⟩

section
variable {A B : Byte} {a b : RegIdx} {s : State} {op : Byte → Byte → Except Raised Byte}

theorem alu1_names (ha : A.toNat = a.val) (op : Byte → Byte) : alu1 op A s = .next (s.setX a (op (s.x a))) :=
  onReg_names ha s _

theorem alu2_of_ok (ha : A.toNat = a.val) (hb : B.toNat = b.val) {v : Byte} (h : op (s.x a) (s.x b) = .ok v) :
    alu2 op A B s = .next (s.setX a v) := by
  rw [alu2, onRegs_names ha hb, h]
  rfl

theorem takes_alu2_of_error (ha : A.toNat = a.val) (hb : B.toNat = b.val) {e : Raised}
    (h : op (s.x a) (s.x b) = .error e) : Takes e.kind s (alu2 op A B s) := by
  rw [alu2, onRegs_names ha hb, h]
  rfl

end

/-- An instruction of the one-operand form has the rule that its operation's result meets. -/
theorem oneRegRule_of_alu1 {opcode : Byte} {mk : Byte → Instr} {R : Byte → Byte → Prop} {op : Byte → Byte}
    (hencode : ∀ A, encode (mk A) = [opcode, A]) (hexec : ∀ A s, exec (mk A) s = alu1 op A s)
    (hop : ∀ p, R p (op p)) : OneRegRule opcode mk R := by
  intro A s
  rw [hexec]
  refine ⟨encodedAs_of_encode_eq (hencode A), fun a ha => ?_, fun hA => takes_invalidRegister_onReg hA s _⟩
  exact exists_next_of_eq_setX (R (s.x a)) (alu1_names ha op) (hop (s.x a))

section
variable {opcode : Byte} {mk : Byte → Byte → Instr} {R : Byte → Byte → Byte → Prop} {op : Byte → Byte → Except Raised Byte}
  (hencode : ∀ A B, encode (mk A B) = [opcode, A, B]) (hexec : ∀ A B s, exec (mk A B) s = alu2 op A B s)
include hencode hexec

/-- An instruction of the two-operand form whose operation always answers. -/
theorem twoRegRule_of_alu2 (hop : ∀ p q, ∃ r, op p q = .ok r ∧ R p q r) : TwoRegRule opcode mk R := by
  intro A B s
  rw [hexec]
  refine ⟨encodedAs_of_encode_eq (hencode A B), fun a b ha hb => ?_, fun hbad => takes_invalidRegister_onRegs hbad s _⟩
  obtain ⟨r, hr, hR⟩ := hop (s.x a) (s.x b)
  exact exists_next_of_eq_setX (R (s.x a) (s.x b)) (alu2_of_ok ha hb hr) hR

/-- An instruction of the two-operand form whose operation answers for every divisor but 0 (42_alu_arithmetic.md R143). -/
theorem divideRule_of_alu2 (hop : ∀ p q, q ≠ 0 → ∃ r, op p q = .ok r ∧ R p q r)
    (hzero : ∀ p, op p 0 = .error ⟨.divisionByZero, none⟩) : DivideRule opcode mk R := by
  intro A B s
  rw [hexec]
  refine ⟨encodedAs_of_encode_eq (hencode A B), fun a b ha hb h0 => ?_, fun a b ha hb h0 => ?_,
    fun hbad => takes_invalidRegister_onRegs hbad s _⟩
  · obtain ⟨r, hr, hR⟩ := hop (s.x a) (s.x b) h0
    exact exists_next_of_eq_setX (R (s.x a) (s.x b)) (alu2_of_ok ha hb hr) hR
  · have herror : op (s.x a) (s.x b) = .error ⟨.divisionByZero, none⟩ := by rw [h0, hzero]
    exact takes_alu2_of_error ha hb herror

end

end Sys2Proof.Machine
end

section
/-! PROOFS. ALU arithmetic: each operation's value, and the statements of its instructions (42_alu_arithmetic.md). -/

namespace Sys2Proof.Machine

/-- Narrowing is the residue modulo 256, also of a negative integer (42_alu_arithmetic.md R141). -/
theorem toNat_trunc8_eq_emod (v : Int) : ((trunc8 v).toNat : Int) = v % 256 := by
  rw [toNat_trunc8]
  omega

/-- A number that fits 8 bits is narrowed without loss (42_alu_arithmetic.md R143). -/
theorem toNat_trunc8_of_lt {n : Nat} (h : n < 256) : (trunc8 (n : Int)).toNat = n := by
  rw [toNat_trunc8]
  omega

theorem toNat_aluInc (p : Byte) : (aluInc p).toNat = (p.toNat + 1) % 256 :=
  mod_cast toNat_trunc8_eq_emod (p.toNat + 1)

theorem toNat_aluDec (p : Byte) : ((aluDec p).toNat : Int) = ((p.toNat : Int) - 1) % 256 :=
  toNat_trunc8_eq_emod _

theorem aluAdd_eq_ok (p q : Byte) : ∃ r, aluAdd p q = .ok r ∧ r.toNat = (p.toNat + q.toNat) % 256 :=
  ⟨_, rfl, mod_cast toNat_trunc8_eq_emod (p.toNat + q.toNat)⟩

theorem aluSub_eq_ok (p q : Byte) : ∃ r, aluSub p q = .ok r ∧ (r.toNat : Int) = ((p.toNat : Int) - q.toNat) % 256 :=
  ⟨_, rfl, toNat_trunc8_eq_emod _⟩

theorem aluMul_eq_ok (p q : Byte) : ∃ r, aluMul p q = .ok r ∧ r.toNat = (p.toNat * q.toNat) % 256 :=
  ⟨_, rfl, mod_cast toNat_trunc8_eq_emod (p.toNat * q.toNat)⟩

/-- The quotient does not exceed the dividend. -/
theorem aluDiv_eq_ok (p : Byte) {q : Byte} (h : q ≠ 0) : ∃ r, aluDiv p q = .ok r ∧ r.toNat = p.toNat / q.toNat :=
  ⟨_, if_neg h, toNat_trunc8_of_lt ((Nat.div_le_self _ _).trans_lt p.isLt)⟩

/-- The remainder is less than the divisor. -/
theorem aluMod_eq_ok (p : Byte) {q : Byte} (h : q ≠ 0) :
    ∃ r, aluMod p q = .ok r ∧ r.toNat = p.toNat % q.toNat ∧ r.toNat < q.toNat := by
  have hlt : p.toNat % q.toNat < q.toNat := Nat.mod_lt _ (BitVec.toNat_pos_of_ne_zero h)
  have hr : (trunc8 ((p.toNat % q.toNat : Nat) : Int)).toNat = p.toNat % q.toNat := toNat_trunc8_of_lt (hlt.trans q.isLt)
  exact ⟨_, if_neg h, hr, hr.trans_lt hlt⟩

theorem aluDiv_zero (p : Byte) : aluDiv p 0 = .error ⟨.divisionByZero, none⟩ :=
  if_pos rfl

theorem aluMod_zero (p : Byte) : aluMod p 0 = .error ⟨.divisionByZero, none⟩ :=
  if_pos rfl

end Sys2Proof.Machine

namespace Sys2Proof

open Machine

/-- Settles O28, by the two-operand form: the exact sum is narrowed once. -/
theorem addWrapsModulo256 : Obligations.AddWrapsModulo256 :=
  twoRegRule_of_alu2 (fun _ _ => rfl) (fun _ _ _ => rfl) aluAdd_eq_ok

/-- Settles O29, by the two-operand form: the exact difference, which may be negative, is narrowed once. -/
theorem subWrapsModulo256 : Obligations.SubWrapsModulo256 :=
  twoRegRule_of_alu2 (fun _ _ => rfl) (fun _ _ _ => rfl) aluSub_eq_ok

/-- Settles O30, by the two-operand form: the exact product is narrowed once. -/
theorem mulKeepsLowByte : Obligations.MulKeepsLowByte :=
  twoRegRule_of_alu2 (fun _ _ => rfl) (fun _ _ _ => rfl) aluMul_eq_ok

/-- Settles O31, by the two-operand form with a divisor: the quotient fits 8 bits. -/
theorem divIsFloorOrDivisionByZero : Obligations.DivIsFloorOrDivisionByZero :=
  divideRule_of_alu2 (fun _ _ => rfl) (fun _ _ _ => rfl) (fun p _ => aluDiv_eq_ok p) aluDiv_zero

/-- Settles O32, by the two-operand form with a divisor: the remainder is below the divisor, so it fits 8 bits. -/
theorem modIsRemainderOrDivisionByZero : Obligations.ModIsRemainderOrDivisionByZero :=
  divideRule_of_alu2 (fun _ _ => rfl) (fun _ _ _ => rfl) (fun p _ => aluMod_eq_ok p) aluMod_zero

/-- Settles O33, by the one-operand form: the exact successor is narrowed once. -/
theorem incWrapsModulo256 : Obligations.IncWrapsModulo256 :=
  oneRegRule_of_alu1 (fun _ => rfl) (fun _ _ => rfl) toNat_aluInc

/-- Settles O34, by the one-operand form: the exact predecessor, which may be -1, is narrowed once. -/
theorem decWrapsModulo256 : Obligations.DecWrapsModulo256 :=
  oneRegRule_of_alu1 (fun _ => rfl) (fun _ _ => rfl) toNat_aluDec

end Sys2Proof
end

section
/-! PROOFS. ALU logic and shifts: each operation is the bit vector operation of its name, and the statements of its instructions
(43_alu_logic_shift.md). -/

namespace Sys2Proof.Machine

theorem aluAnd_eq_ok (p q : Byte) :
    ∃ r, aluAnd p q = .ok r ∧ ∀ k, r.getLsbD k = true ↔ p.getLsbD k = true ∧ q.getLsbD k = true :=
  ⟨p &&& q, rfl, fun k => by rw [BitVec.getLsbD_and, Bool.and_eq_true]⟩

theorem aluOr_eq_ok (p q : Byte) :
    ∃ r, aluOr p q = .ok r ∧ ∀ k, r.getLsbD k = true ↔ p.getLsbD k = true ∨ q.getLsbD k = true :=
  ⟨p ||| q, rfl, fun k => by rw [BitVec.getLsbD_or, Bool.or_eq_true]⟩

theorem aluXor_eq_ok (p q : Byte) : ∃ r, aluXor p q = .ok r ∧ ∀ k, r.getLsbD k = true ↔ p.getLsbD k ≠ q.getLsbD k :=
  ⟨p ^^^ q, rfl, fun k => by rw [BitVec.getLsbD_xor, bne_iff_ne]⟩

theorem toNat_aluNot (p : Byte) : (aluNot p).toNat = 255 - p.toNat := by
  have hp : p.toNat < 256 := p.isLt
  rw [aluNot, toNat_trunc8]
  omega

theorem aluNot_eq_complement (p : Byte) : aluNot p = ~~~p :=
  BitVec.eq_of_toNat_eq (by rw [toNat_aluNot, BitVec.toNat_not])

/-- The complement within 8 bits (43_alu_logic_shift.md R163). -/
theorem aluNot_spec (p : Byte) :
    (aluNot p).toNat = 255 - p.toNat ∧ aluNot p = p ^^^ 0xFF ∧ ∀ k < 8, (aluNot p).getLsbD k = !p.getLsbD k := by
  refine ⟨toNat_aluNot p, ?_, fun k hk => ?_⟩
  · exact (aluNot_eq_complement p).trans BitVec.xor_allOnes.symm
  · rw [aluNot_eq_complement, BitVec.getLsbD_not, decide_eq_true hk, Bool.true_and]

/-- The product with a power of two, narrowed, is the logical shift left by the whole amount. -/
theorem aluShl_eq_shiftLeft (p q : Byte) : aluShl p q = .ok (p <<< q.toNat) := by
  refine congrArg Except.ok (BitVec.eq_of_toNat_eq ?_)
  rw [toNat_trunc8, BitVec.toNat_shiftLeft, Nat.shiftLeft_eq]
  rfl

/-- The quotient by a power of two is the logical shift right by the whole amount. -/
theorem aluShr_eq_ushiftRight (p q : Byte) : aluShr p q = .ok (p >>> q.toNat) := by
  refine congrArg Except.ok (BitVec.eq_of_toNat_eq ?_)
  rw [toNat_trunc8_of_lt ((Nat.div_le_self _ _).trans_lt p.isLt), BitVec.toNat_ushiftRight, Nat.shiftRight_eq_div_pow]

/-- The law of the shifts for SHL (43_alu_logic_shift.md R166). -/
theorem aluShl_spec (p q : Byte) : ∃ r, aluShl p q = .ok r ∧
    (∀ k < 8, r.getLsbD k = (decide (q.toNat ≤ k) && p.getLsbD (k - q.toNat))) ∧
    r.toNat = (p.toNat * 2 ^ q.toNat) % 256 ∧ (8 ≤ q.toNat → r = 0) ∧ (q = 0 → r = p) := by
  refine ⟨p <<< q.toNat, aluShl_eq_shiftLeft p q, fun k hk => ?_, ?_, BitVec.shiftLeft_eq_zero, ?_⟩
  · simp only [BitVec.getLsbD_shiftLeft, hk, decide_true, Bool.true_and, ← decide_not, Nat.not_lt]
  · rw [BitVec.toNat_shiftLeft, Nat.shiftLeft_eq]
  · rintro rfl
    exact BitVec.shiftLeft_zero p

/-- The law of the shifts for SHR (43_alu_logic_shift.md R166). -/
theorem aluShr_spec (p q : Byte) : ∃ r, aluShr p q = .ok r ∧
    (∀ k < 8, r.getLsbD k = p.getLsbD (k + q.toNat)) ∧
    r.toNat = p.toNat / 2 ^ q.toNat ∧ (8 ≤ q.toNat → r = 0) ∧ (q = 0 → r = p) := by
  refine ⟨p >>> q.toNat, aluShr_eq_ushiftRight p q, fun k _ => ?_, ?_, BitVec.ushiftRight_eq_zero, ?_⟩
  · rw [BitVec.getLsbD_ushiftRight, Nat.add_comm]
  · rw [BitVec.toNat_ushiftRight, Nat.shiftRight_eq_div_pow]
  · rintro rfl
    exact BitVec.ushiftRight_zero p

theorem aluShl_eq_ok (p q : Byte) : ∃ r, aluShl p q = .ok r ∧ r.toNat = (p.toNat * 2 ^ q.toNat) % 256 := by
  obtain ⟨r, hr, -, hval, -⟩ := aluShl_spec p q
  exact ⟨r, hr, hval⟩

theorem aluShr_eq_ok (p q : Byte) : ∃ r, aluShr p q = .ok r ∧ r.toNat = p.toNat / 2 ^ q.toNat := by
  obtain ⟨r, hr, -, hval, -⟩ := aluShr_spec p q
  exact ⟨r, hr, hval⟩

end Sys2Proof.Machine

namespace Sys2Proof

open Machine

/-- Settles O35, by the two-operand form: the bits of a conjunction. -/
theorem andIsBitwise : Obligations.AndIsBitwise :=
  twoRegRule_of_alu2 (fun _ _ => rfl) (fun _ _ _ => rfl) aluAnd_eq_ok

/-- Settles O36, by the two-operand form: the bits of a disjunction. -/
theorem orIsBitwise : Obligations.OrIsBitwise :=
  twoRegRule_of_alu2 (fun _ _ => rfl) (fun _ _ _ => rfl) aluOr_eq_ok

/-- Settles O37, by the two-operand form: the bits of an exclusive or. -/
theorem xorIsBitwise : Obligations.XorIsBitwise :=
  twoRegRule_of_alu2 (fun _ _ => rfl) (fun _ _ _ => rfl) aluXor_eq_ok

/-- Settles O38, by the one-operand form: 255 - x is the complement of the 8 bits. -/
theorem notIsEightBitComplement : Obligations.NotIsEightBitComplement :=
  oneRegRule_of_alu1 (fun _ => rfl) (fun _ _ => rfl) aluNot_spec

/-- Settles O39, by the two-operand form: the exact product is narrowed once. -/
theorem shlMultipliesByPowerOfTwo : Obligations.ShlMultipliesByPowerOfTwo :=
  twoRegRule_of_alu2 (fun _ _ => rfl) (fun _ _ _ => rfl) aluShl_eq_ok

/-- Settles O40, by the two-operand form: the quotient fits 8 bits. -/
theorem shrDividesByPowerOfTwo : Obligations.ShrDividesByPowerOfTwo :=
  twoRegRule_of_alu2 (fun _ _ => rfl) (fun _ _ _ => rfl) aluShr_eq_ok

/-- Settles O41, by the two-operand form: both operations are the logical shift by the whole amount. -/
theorem shiftsAreLogicalAndUnmasked : Obligations.ShiftsAreLogicalAndUnmasked :=
  ⟨twoRegRule_of_alu2 (fun _ _ => rfl) (fun _ _ _ => rfl) aluShl_spec,
    twoRegRule_of_alu2 (fun _ _ => rfl) (fun _ _ _ => rfl) aluShr_spec⟩

end Sys2Proof
end

section
/-! PROOFS. Compare: the comparator's value in each of its three cases, and the statement of CMP (44_compare.md). -/

namespace Sys2Proof.Machine

section
variable {p q : Byte}

theorem comparator_of_toNat_eq (h : p.toNat = q.toNat) : comparator p q = 0b00000001 :=
  if_pos (BitVec.eq_of_toNat_eq h)

theorem comparator_of_toNat_gt (h : p.toNat > q.toNat) : comparator p q = 0b00000010 := by
  have hne : p ≠ q := fun e => h.ne' (congrArg BitVec.toNat e)
  exact (if_neg hne).trans (if_pos h)

theorem comparator_of_toNat_lt (h : p.toNat < q.toNat) : comparator p q = 0b00000100 := by
  have hne : p ≠ q := fun e => h.ne (congrArg BitVec.toNat e)
  exact (if_neg hne).trans (if_neg h.asymm)

end

theorem exec_cmp {A B : Byte} {a b : RegIdx} (ha : A.toNat = a.val) (hb : B.toNat = b.val) (s : State) :
    exec (.cmp A B) s = .next (s.setFl (comparator (s.x a) (s.x b))) :=
  onRegs_names ha hb s _

end Sys2Proof.Machine

namespace Sys2Proof

open Machine

/-- Settles O42: the new fl is the comparator's answer, and it alone is written. -/
theorem cmpSetsExactlyOneFlag : Obligations.CmpSetsExactlyOneFlag := by
  intro A B s
  refine ⟨encodedAs_of_encode_eq rfl, fun a b ha hb => ?_, fun hbad => takes_invalidRegister_onRegs hbad s _⟩
  exact ⟨s.setFl (comparator (s.x a) (s.x b)), exec_cmp ha hb s,
    comparator_of_toNat_eq, comparator_of_toNat_gt, comparator_of_toNat_lt,
    fun _ _ => rfl, fun _ => rfl, rfl, rfl, rfl⟩

end Sys2Proof
end

section
/-! PROOFS. The state that a push leaves, and what a pop of the byte at SP makes of it (45_stack.md R190 to R195). -/

namespace Sys2Proof.Machine

/-- SP decremented and a byte written at it: what a push of v leaves where SP is not 0 (45_stack.md R195). -/
def State.push (s : State) (v : Byte) : State :=
  (s.setX 7 (s.sp - 1)).setMem (s.mem.write (s.sp - 1).toNat v)

/-- The byte that PUSH of register a writes: the register's value after the decrement (decision D11). -/
def State.pushedByte (s : State) (a : RegIdx) : Byte :=
  (s.setX 7 (s.sp - 1)).x a

section
variable {A B : Byte} {a b : RegIdx} {s : State}

theorem exec_push_eq_push (ha : A.toNat = a.val) (h : s.sp ≠ 0) : exec (.push A) s = .next (s.push (s.pushedByte a)) :=
  exec_push ha h

theorem takes_stackOverflow_push (ha : A.toNat = a.val) (h : s.sp = 0) : Takes .stackOverflow s (exec (.push A) s) := by
  rw [exec, execPush, onReg_names ha, State.stackPush_zero h]
  rfl

theorem State.pushedByte_sp (s : State) : s.pushedByte 7 = s.sp - 1 :=
  s.x_setX_same 7 _

theorem State.pushedByte_of_ne (h : a ≠ 7) : s.pushedByte a = s.x a := by
  rw [State.pushedByte, State.x_setX, if_neg h]

theorem State.x_push (s : State) (v : Byte) (r : RegIdx) : (s.push v).x r = s.pushedByte r := rfl

theorem State.sp_push (s : State) (v : Byte) : (s.push v).sp = s.sp - 1 :=
  s.pushedByte_sp

theorem State.toNat_sp_push (h : s.sp ≠ 0) (v : Byte) : (s.push v).sp.toNat + 1 = s.sp.toNat := by
  rw [State.sp_push]
  bv_omega

theorem sameRegsBut_push (s : State) (v : Byte) : SameRegsBut [7] s (s.push v) :=
  sameRegsBut_setX s 7 _

theorem State.read_push (h : s.sp ≠ 0) (v : Byte) (c : Nat) :
    (s.push v).mem.read c = if c = s.sp.toNat - 1 then v else s.mem.read c := by
  rw [State.push, State.mem_setMem, Memory.read_write, toNat_sub_one h]

theorem State.read_push_same (h : s.sp ≠ 0) (v : Byte) : (s.push v).mem.read (s.sp.toNat - 1) = v := by
  rw [State.read_push h, if_pos rfl]

theorem sameMemBut_push (h : s.sp ≠ 0) (v : Byte) : SameMemBut (s.sp.toNat - 1) s (s.push v) := fun c hc => by
  rw [State.read_push h, if_neg hc]

theorem toNat_add_one {p : Byte} (h : p ≠ 255) : (p + 1).toNat = p.toNat + 1 := by
  bv_omega

theorem State.sp_setX_of_ne (h : a ≠ 7) (v : Byte) : (s.setX a v).sp = s.sp := by
  rw [State.sp_setX, if_neg h.symm]

/-- POP increments the SP that its read has left: for register 7 the byte read, and else SP itself (decision D11). -/
theorem exec_pop (ha : A.toNat = a.val) (s : State) :
    exec (.pop A) s = s.finish (do
      let sp' ← spInc (s.setX a (s.mem.read s.sp.toNat)).sp
      .ok ((s.setX a (s.mem.read s.sp.toNat)).setX 7 sp')) := by
  rw [exec, execPop, onReg_names ha, State.memRead_byte, State.sp_setX]
  simp only [eq_comm (a := Config.spIndex)]
  rfl

theorem exec_pop_of_ne (ha : A.toNat = a.val) (h : (s.setX a (s.mem.read s.sp.toNat)).sp ≠ 255) :
    exec (.pop A) s = .next ((s.setX a (s.mem.read s.sp.toNat)).setX 7 ((s.setX a (s.mem.read s.sp.toNat)).sp + 1)) := by
  rw [exec_pop ha, spInc_of_ne h]
  rfl

theorem takes_stackUnderflow_pop (ha : A.toNat = a.val) (h : (s.setX a (s.mem.read s.sp.toNat)).sp = 255) :
    Takes .stackUnderflow s (exec (.pop A) s) := by
  rw [exec_pop ha, h, spInc_top]
  rfl

/-- A POP of the byte just pushed puts SP back; where the byte goes to register 7, it must be the decremented SP. -/
theorem exec_pop_push (hb : B.toNat = b.val) (h : s.sp ≠ 0) {v : Byte} (hv : b = 7 → v = s.sp - 1) :
    exec (.pop B) (s.push v) = .next (((s.push v).setX b v).setX 7 s.sp) := by
  have hread : (s.push v).mem.read (s.push v).sp.toNat = v := by
    rw [State.sp_push, toNat_sub_one h, State.read_push_same h]
  have hsp : ((s.push v).setX b v).sp = s.sp - 1 := by
    by_cases h7 : b = 7
    · rw [h7, hv h7]
      exact State.x_setX_same _ 7 _
    · rw [State.sp_setX_of_ne h7, State.sp_push]
  have hne : s.sp - 1 ≠ 255 := by bv_omega
  rw [exec_pop_of_ne hb (by rwa [hread, hsp]), hread, hsp, BitVec.sub_add_cancel]

/-- The registers after PUSH of a and POP of b: a move, which is the identity where a is b (45_stack.md R194); register 7
pairs with itself only. -/
theorem x_push_pop (hab : a = 7 ↔ b = 7) (r : RegIdx) :
    (((s.push (s.pushedByte a)).setX b (s.pushedByte a)).setX 7 s.sp).x r = if r = b then s.x a else s.x r := by
  by_cases hr : r = 7
  · subst hr
    rw [State.x_setX_same]
    split
    · next hb =>
      rw [hab.mpr hb.symm, State.sp_eq]
    · rfl
  · rw [State.x_setX, if_neg hr, State.x_setX, State.x_push, State.pushedByte_of_ne hr]
    split
    · next hb =>
      rw [State.pushedByte_of_ne fun ha => hr (hb.trans (hab.mp ha))]
    · rfl

end

end Sys2Proof.Machine
end

section
/-! PROOFS. The bytes of two instructions in a row, and the steps of a PUSH and of the POP that follows it
(40_step_cycle.md R119). -/

namespace Sys2Proof.Machine

variable {s t : State} {bs cs : List Byte}

theorem codeAt_left_of_append (h : CodeAt s (bs ++ cs)) : CodeAt s bs := by
  obtain ⟨hfit, hbytes⟩ := h
  rw [List.length_append] at hfit
  refine ⟨by omega, fun k hk => ?_⟩
  rw [hbytes k (by rw [List.length_append]; omega), List.getElem_append_left hk]

/-- Past the bytes of one instruction the next one's stand at pc, where they have not been written over. -/
theorem codeAt_right_of_append (h : CodeAt s (bs ++ cs)) (hpc : t.pc.toNat = s.pc.toNat + bs.length)
    (hmem : ∀ k < cs.length, t.mem.read (t.pc.toNat + k) = s.mem.read (t.pc.toNat + k)) : CodeAt t cs := by
  obtain ⟨hfit, hbytes⟩ := h
  rw [List.length_append] at hfit
  refine ⟨by omega, fun k hk => ?_⟩
  rw [hmem k hk, hpc, Nat.add_assoc, hbytes (bs.length + k) (by rw [List.length_append]; omega),
    List.getElem_append_right (by omega)]
  simp only [Nat.add_sub_cancel_left]

theorem step_push {A : Byte} {a : RegIdx} (hr : s.run = .running) (hcode : CodeAt s [0x45, A]) (ha : A.toNat = a.val)
    (h : s.sp ≠ 0) :
    step s = .next ((s.push (s.pushedByte a)).setPc (BitVec.ofNat 9 (s.pc.toNat + 2))) :=
  (step_of_codeAt (i := .push A) hr hcode).trans (exec_push_eq_push (s := s.setPc (BitVec.ofNat 9 (s.pc.toNat + 2))) ha h)

theorem step_pop_push {B v : Byte} {b : RegIdx} {p : PcWord} (hr : s.run = .running)
    (hcode : CodeAt ((s.push v).setPc p) [0x46, B]) (hb : B.toNat = b.val) (h : s.sp ≠ 0) (hv : b = 7 → v = s.sp - 1) :
    step ((s.push v).setPc p) =
      .next ((((s.push v).setX b v).setX 7 s.sp).setPc (BitVec.ofNat 9 (p.toNat + 2))) :=
  (step_of_codeAt (s := (s.push v).setPc p) (i := .pop B) hr hcode).trans
    (exec_pop_push (s := s.setPc (BitVec.ofNat 9 (p.toNat + 2))) hb h hv)

end Sys2Proof.Machine
end

section
/-! PROOFS. The statements about PUSH and POP (45_stack.md R191, R192, R194). -/

namespace Sys2Proof

open Machine

/-- Settles O44: with SP above 0 the state left is that of a push of the register's value after the decrement. -/
theorem pushDecrementsThenWrites : Obligations.PushDecrementsThenWrites := by
  intro A s
  refine ⟨encodedAs_of_encode_eq rfl, fun a ha h => ?_, fun a ha h => takes_stackOverflow_push ha h,
    fun hA => takes_invalidRegister_onReg hA s _⟩
  exact ⟨s.push (s.pushedByte a), exec_push_eq_push ha h, State.toNat_sp_push h _, sameRegsBut_push s _,
    State.read_push_same h _, sameMemBut_push h _, rfl, rfl, rfl, rfl⟩

/-- Settles O45: the cases are told by the SP that the read has left, which for register 7 is the byte read. -/
theorem popReadsThenIncrements : Obligations.PopReadsThenIncrements := by
  intro A s
  have hsp_ne : ∀ a : RegIdx, a ≠ 7 → (s.setX a (s.mem.read s.sp.toNat)).sp = s.sp := fun a h7 => State.sp_setX_of_ne h7 _
  have hsp_seven : (s.setX 7 (s.mem.read s.sp.toNat)).sp = s.mem.read s.sp.toNat := s.x_setX_same 7 _
  refine ⟨encodedAs_of_encode_eq rfl, fun a ha h7 h => ?_, fun a ha h7 h => ?_, fun a ha h7 h => ?_, fun a ha h7 h => ?_,
    fun hA => takes_invalidRegister_onReg hA s _⟩
  · refine ⟨_, exec_pop_of_ne ha ((hsp_ne a h7).trans_ne h), ?_, ?_, fun r hr => ?_, fun _ => rfl, rfl, rfl, rfl, rfl⟩
    · rw [State.x_setX, if_neg h7, State.x_setX_same, State.sp_eq]
    · rw [State.x_setX_same, hsp_ne a h7]
      exact toNat_add_one h
    · obtain ⟨hra, hr7⟩ : r ≠ a ∧ r ≠ 7 := by simpa using hr
      rw [State.x_setX, if_neg hr7, State.x_setX, if_neg hra]
  · exact takes_stackUnderflow_pop ha ((hsp_ne a h7).trans h)
  · subst h7
    refine ⟨_, exec_pop_of_ne ha (hsp_seven.trans_ne h), ?_, fun r hr => ?_, fun _ => rfl, rfl, rfl, rfl, rfl⟩
    · rw [State.x_setX_same, hsp_seven]
      exact toNat_add_one h
    · rw [sameRegsBut_setX _ 7 _ r hr, sameRegsBut_setX _ 7 _ r hr]
  · subst h7
    exact takes_stackUnderflow_pop ha (hsp_seven.trans h)

/-- Settles O46: the POP is fetched from the memory that the PUSH left, and takes from it the byte just pushed. -/
theorem pushThenPop : Obligations.PushThenPop := by
  intro s A B a b hr hcode ha hb h0 h2 h3 hab
  have hfit : s.pc.toNat + 4 ≤ 256 := hcode.1
  have hpc : ∀ n ≤ 4, (BitVec.ofNat 9 (s.pc.toNat + n)).toNat = s.pc.toNat + n := fun n hn => by
    rw [BitVec.toNat_ofNat, Nat.mod_eq_of_lt (by omega)]
  have hpc2 := hpc 2 (by decide)
  have hpush := step_push hr (codeAt_left_of_append (cs := [0x46, B]) hcode) ha h0
  have hpopcode : CodeAt ((s.push (s.pushedByte a)).setPc (BitVec.ofNat 9 (s.pc.toNat + 2))) [0x46, B] := by
    refine codeAt_right_of_append (bs := [0x45, A]) hcode hpc2 fun k hk => sameMemBut_push h0 _ _ ?_
    rw [State.pc_setPc, hpc2]
    rw [State.sp_eq] at h2 h3
    simp only [List.length_cons, List.length_nil] at hk
    omega
  have hseven : a = 7 ↔ b = 7 := by
    rcases hab with rfl | ⟨ha7, hb7⟩
    · rfl
    · exact iff_of_false ha7 hb7
  have hpop := step_pop_push hr hpopcode hb h0 fun hb7 => hseven.mpr hb7 ▸ s.pushedByte_sp
  rw [hpc2] at hpop
  refine ⟨_, _, hpush, hpop, hr, fun heq r _ => ?_, fun hne => ⟨fun r hr => ?_, ?_⟩, rfl, rfl, hpc 4 le_rfl,
    State.read_push_same h0 _, sameMemBut_push h0 _⟩
  · rw [State.x_setPc, x_push_pop hseven, heq]
    split
    · next h => rw [h]
    · rfl
  · rw [State.x_setPc, x_push_pop hseven, if_neg (List.ne_of_not_mem_cons hr)]
  · rw [State.x_setPc, x_push_pop hseven, if_pos rfl]

end Sys2Proof
end

section
/-! PROOFS. The conditions of the six jumps on the values of fl, and after a comparison (46_control_transfer.md R204). -/

namespace Sys2Proof.Machine

section
variable (p q : Byte)

theorem legalFlags_comparator : LegalFlags (comparator p q) := by
  rcases comparator_cases p q with ⟨-, h⟩ | ⟨-, h⟩ | ⟨-, h⟩ <;> rw [h] <;> decide

theorem comparator_ne_zero : comparator p q ≠ 0 := by
  rcases comparator_cases p q with ⟨-, h⟩ | ⟨-, h⟩ | ⟨-, h⟩ <;> rw [h] <;> decide

theorem comparator_eq_one_iff : comparator p q = 1 ↔ p.toNat = q.toNat := by
  rcases comparator_cases p q with ⟨h, hc⟩ | ⟨h, hc⟩ | ⟨h, hc⟩ <;> rw [hc]
  · exact iff_of_true rfl h
  · exact iff_of_false (by decide) h.ne'
  · exact iff_of_false (by decide) h.ne

theorem comparator_eq_two_iff : comparator p q = 2 ↔ p.toNat > q.toNat := by
  rcases comparator_cases p q with ⟨h, hc⟩ | ⟨h, hc⟩ | ⟨h, hc⟩ <;> rw [hc]
  · exact iff_of_false (by decide) h.not_gt
  · exact iff_of_true rfl h
  · exact iff_of_false (by decide) h.asymm

theorem comparator_eq_four_iff : comparator p q = 4 ↔ p.toNat < q.toNat := by
  rcases comparator_cases p q with ⟨h, hc⟩ | ⟨h, hc⟩ | ⟨h, hc⟩ <;> rw [hc]
  · exact iff_of_false (by decide) h.not_lt
  · exact iff_of_false (by decide) h.asymm
  · exact iff_of_true rfl h

end

/-- The conditions as sets of the legal values of fl. -/
theorem conditions_of_legalFlags {fl : Byte} (h : LegalFlags fl) :
    (condEq fl = true ↔ fl = 1) ∧ (condNe fl = true ↔ fl = 0 ∨ fl = 2 ∨ fl = 4) ∧ (condGt fl = true ↔ fl = 2) ∧
    (condLt fl = true ↔ fl = 4) ∧ (condGe fl = true ↔ fl = 1 ∨ fl = 2) ∧ (condLe fl = true ↔ fl = 1 ∨ fl = 4) := by
  rcases h with rfl | rfl | rfl | rfl <;> decide

end Sys2Proof.Machine

namespace Sys2Proof

open Machine

/-- Settles O43: a comparison leaves one of the values 1, 2, 4 in fl, each for its own order of the operands, so the sets of
values give the conditions after it. -/
theorem conditionsAfterCompare : Obligations.ConditionsAfterCompare := by
  refine ⟨fun p q => ?_, fun fl => conditions_of_legalFlags⟩
  obtain ⟨heq, hne, hgt, hlt, hge, hle⟩ := conditions_of_legalFlags (legalFlags_comparator p q)
  refine ⟨heq.trans (comparator_eq_one_iff p q), hne.trans ?_, hgt.trans (comparator_eq_two_iff p q),
    hlt.trans (comparator_eq_four_iff p q), hge.trans ?_, hle.trans ?_⟩
  · rw [or_iff_right (comparator_ne_zero p q), comparator_eq_two_iff, comparator_eq_four_iff]
    omega
  · rw [comparator_eq_one_iff, comparator_eq_two_iff]
    omega
  · rw [comparator_eq_one_iff, comparator_eq_four_iff]
    omega

end Sys2Proof
end

section
/-! PROOFS. JMP and the conditional jumps, taken and not taken (46_control_transfer.md R200, R203 to R210). -/

namespace Sys2Proof.Machine

section
variable {A : Byte} {a : RegIdx} {s : State} {c : Byte → Bool}

theorem exec_jmp (ha : A.toNat = a.val) (s : State) : exec (.jmp A) s = .next (s.setPc (zext9 (s.x a))) :=
  onReg_names ha s _

theorem jumpIf_taken (ha : A.toNat = a.val) (h : c s.fl = true) : jumpIf c A s = .next (s.setPc (zext9 (s.x a))) := by
  rw [jumpIf, onReg_names ha, if_pos h, State.finish_ok]

theorem jumpIf_untaken (ha : A.toNat = a.val) (h : ¬ c s.fl = true) : jumpIf c A s = .next s := by
  rw [jumpIf, onReg_names ha, if_neg h, State.finish_ok]

end

/-- An outcome in which pc became the value of a register leaves everything else as it was. -/
theorem exists_next_of_eq_setPc {o : Host.Outcome State Fault Refusal} {s : State} {a : RegIdx}
    (ho : o = .next (s.setPc (zext9 (s.x a)))) :
    ∃ t, o = .next t ∧ t.pc.toNat = (s.x a).toNat ∧ SameRegsBut [] s t ∧ SameMem s t ∧ t.fl = s.fl ∧
      t.run = s.run ∧ t.events = s.events :=
  ⟨s.setPc (zext9 (s.x a)), ho, toNat_zext9 _, fun _ _ => rfl, fun _ => rfl, rfl, rfl, rfl⟩

/-- The conditional jumps are one rule, which the condition tells apart. -/
theorem condJumpRule_of_jumpIf {op : Byte} {mk : Byte → Instr} {taken : Byte → Prop} {c : Byte → Bool}
    (hencode : ∀ A, encode (mk A) = [op, A]) (hexec : ∀ A s, exec (mk A) s = jumpIf c A s)
    (hc : ∀ fl, c fl = true ↔ taken fl) : CondJumpRule op mk taken := by
  intro A s
  rw [hexec]
  refine ⟨encodedAs_of_encode_eq (hencode A), fun a ha h => ?_, fun a ha h => ?_,
    fun hA => takes_invalidRegister_onReg hA s _⟩
  · exact exists_next_of_eq_setPc (jumpIf_taken ha ((hc _).mpr h))
  · exact jumpIf_untaken ha (mt (hc _).mp h)

end Sys2Proof.Machine

namespace Sys2Proof

open Machine

/-- Settles O50: pc alone is written. -/
theorem jmpSetsPcToRegister : Obligations.JmpSetsPcToRegister := fun _ s =>
  ⟨encodedAs_of_encode_eq rfl, fun _ ha => exists_next_of_eq_setPc (exec_jmp ha s),
    fun hA => takes_invalidRegister_onReg hA s _⟩

/-- Settles O51, by the rule of the conditional jumps: each condition is the model's on the bits E, G, L of fl. -/
theorem conditionalJumpsTestFlags : Obligations.ConditionalJumpsTestFlags :=
  ⟨condJumpRule_of_jumpIf (c := condEq) (fun _ => rfl) (fun _ _ => rfl) fun _ => Iff.rfl,
    condJumpRule_of_jumpIf (c := condNe) (fun _ => rfl) (fun _ _ => rfl) fun _ => Iff.of_eq (Bool.not_eq_true' _),
    condJumpRule_of_jumpIf (c := condGt) (fun _ => rfl) (fun _ _ => rfl) fun _ => Iff.rfl,
    condJumpRule_of_jumpIf (c := condLt) (fun _ => rfl) (fun _ _ => rfl) fun _ => Iff.rfl,
    condJumpRule_of_jumpIf (c := condGe) (fun _ => rfl) (fun _ _ => rfl) fun _ => Bool.or_eq_true_iff,
    condJumpRule_of_jumpIf (c := condLe) (fun _ => rfl) (fun _ _ => rfl) fun _ => Bool.or_eq_true_iff⟩

end Sys2Proof
end

section
/-! PROOFS. CALL as a push of the return address and a jump, RET as the pop of pc, and the pair (46_control_transfer.md R201,
R202, R211). -/

namespace Sys2Proof.Machine

/-- The byte that CALL pushes: the low 8 bits of the address of the next instruction (46_control_transfer.md R201). -/
def State.returnByte (s : State) : Byte :=
  trunc8 (s.pc.toNat : Int)

section
variable {A : Byte} {a : RegIdx} {s : State}

theorem State.toNat_returnByte (s : State) : s.returnByte.toNat = s.pc.toNat % 256 := by
  exact_mod_cast toNat_trunc8_eq_emod s.pc.toNat

/-- The target is the register's value after the push, as the byte that PUSH would write (46_control_transfer.md R201). -/
theorem exec_call_eq_push (ha : A.toNat = a.val) (h : s.sp ≠ 0) :
    exec (.call A) s = .next ((s.push s.returnByte).setPc (zext9 (s.pushedByte a))) :=
  exec_call ha h

theorem takes_stackOverflow_call (ha : A.toNat = a.val) (h : s.sp = 0) : Takes .stackOverflow s (exec (.call A) s) := by
  rw [exec, execCall, onReg_names ha, State.stackPush_zero h]
  rfl

theorem exec_ret_of_ne (h : s.sp ≠ 255) :
    exec .ret s = .next ((s.setX 7 (s.sp + 1)).setPc (zext9 (s.mem.read s.sp.toNat))) := by
  rw [exec, execRet, spInc_of_ne h, State.memRead_byte]
  rfl

theorem takes_stackUnderflow_ret (h : s.sp = 255) : Takes .stackUnderflow s (exec .ret s) := by
  rw [exec, execRet, h, spInc_top]
  rfl

/-- A RET of the byte just pushed puts SP back and goes to that byte, wherever the jump between them went. -/
theorem exec_ret_push (h : s.sp ≠ 0) (v : Byte) (p : PcWord) :
    exec .ret ((s.push v).setPc p) = .next (((s.push v).setX 7 s.sp).setPc (zext9 v)) := by
  have hsp : ((s.push v).setPc p).sp = s.sp - 1 := s.sp_push v
  have hne : s.sp - 1 ≠ 255 := by bv_omega
  rw [exec_ret_of_ne (hsp.trans_ne hne), hsp, BitVec.sub_add_cancel, State.mem_setPc, toNat_sub_one h,
    State.read_push_same h]
  rfl

/-- A push writes no register but SP, which the pop puts back. -/
theorem x_push_setX_sp (s : State) (v : Byte) (r : RegIdx) : ((s.push v).setX 7 s.sp).x r = s.x r := by
  by_cases hr : r = 7
  · rw [hr, State.x_setX_same, State.sp_eq]
  · rw [State.x_setX, if_neg hr, State.x_push, State.pushedByte_of_ne hr]

theorem codeAt_singleton {op : Byte} (hfit : s.pc.toNat < 256) (h : s.mem.read s.pc.toNat = op) : CodeAt s [op] := by
  refine ⟨hfit, fun k hk => ?_⟩
  obtain rfl : k = 0 := Nat.lt_one_iff.mp hk
  exact h

theorem step_call (hr : s.run = .running) (hcode : CodeAt s [0x50, A]) (ha : A.toNat = a.val) (h7 : a ≠ 7)
    (h : s.sp ≠ 0) :
    step s = .next ((s.push (s.setPc (BitVec.ofNat 9 (s.pc.toNat + 2))).returnByte).setPc (zext9 (s.x a))) := by
  rw [← State.pushedByte_of_ne h7]
  exact (step_of_codeAt (i := .call A) hr hcode).trans
    (exec_call_eq_push (s := s.setPc (BitVec.ofNat 9 (s.pc.toNat + 2))) ha h)

theorem step_ret_push {v : Byte} {p : PcWord} (hr : s.run = .running) (hcode : CodeAt ((s.push v).setPc p) [0x11])
    (h : s.sp ≠ 0) : step ((s.push v).setPc p) = .next (((s.push v).setX 7 s.sp).setPc (zext9 v)) :=
  (step_of_codeAt (s := (s.push v).setPc p) (i := .ret) hr hcode).trans (exec_ret_push h v _)

end

end Sys2Proof.Machine
end

section
/-! PROOFS. The statements about CALL and RET (46_control_transfer.md R201, R202, R211). -/

namespace Sys2Proof

open Machine

/-- Settles O47: with SP above 0 the state left is that of a push of the return byte, with pc at the register's value after
it. -/
theorem callPushesReturnAddressAndJumps : Obligations.CallPushesReturnAddressAndJumps := by
  intro A s
  refine ⟨encodedAs_of_encode_eq rfl, fun a ha h => ?_, fun a ha h => takes_stackOverflow_call ha h,
    fun hA => takes_invalidRegister_onReg hA s _⟩
  have hread : ((s.push s.returnByte).mem.read (s.sp.toNat - 1)).toNat = s.pc.toNat % 256 := by
    rw [State.read_push_same h, State.toNat_returnByte]
  exact ⟨(s.push s.returnByte).setPc (zext9 (s.pushedByte a)), exec_call_eq_push ha h, State.toNat_sp_push h s.returnByte,
    sameRegsBut_push s s.returnByte, hread, sameMemBut_push h s.returnByte, toNat_zext9 _, rfl, rfl, rfl⟩

/-- Settles O48: the state left is the one with SP incremented and pc at the byte that stood at SP. -/
theorem retPopsPc : Obligations.RetPopsPc := by
  intro s
  refine ⟨encodedAs_of_encode_eq rfl, fun h => ?_, takes_stackUnderflow_ret⟩
  have hsp : ((s.setX 7 (s.sp + 1)).x 7).toNat = s.sp.toNat + 1 := by
    rw [State.x_setX_same]
    exact toNat_add_one h
  exact ⟨_, exec_ret_of_ne h, hsp, sameRegsBut_setX s 7 _, toNat_zext9 _, fun _ => rfl, rfl, rfl, rfl⟩

/-- Settles O49: the RET is fetched from the memory that the CALL left, and pops the return byte, which for a pc at most 253 is
the whole address of the next instruction. -/
theorem callThenReturn : Obligations.CallThenReturn := by
  intro s A a hr hcode hpc ha h7 h0 htarget hret
  have hreturn : (s.setPc (BitVec.ofNat 9 (s.pc.toNat + 2))).returnByte.toNat = s.pc.toNat + 2 := by
    rw [State.toNat_returnByte, State.pc_setPc, BitVec.toNat_ofNat]
    omega
  have hcall := step_call hr hcode ha h7 h0
  generalize (s.setPc (BitVec.ofNat 9 (s.pc.toNat + 2))).returnByte = v at hreturn hcall
  have hretcode : CodeAt ((s.push v).setPc (zext9 (s.x a))) [0x11] := by
    refine codeAt_singleton ?_ ?_ <;> rw [State.pc_setPc, toNat_zext9]
    · exact (s.x a).isLt
    · exact (sameMemBut_push h0 v _ htarget).trans hret
  have hread : ((s.push v).mem.read (s.sp.toNat - 1)).toNat = s.pc.toNat + 2 := by
    rw [State.read_push_same h0, hreturn]
  exact ⟨_, _, hcall, toNat_zext9 _, step_ret_push hr hretcode h0, hr, (toNat_zext9 v).trans hreturn,
    fun r _ => x_push_setX_sp s v r, rfl, rfl, hread, sameMemBut_push h0 v⟩

end Sys2Proof
end

section
/-! PROOFS. ST and LD: the one cell that a store reaches, and the load as a register write (47_memory_access.md). -/

namespace Sys2Proof.Machine

theorem State.read_setMem_write_same (s : State) (c : Nat) (v : Byte) : (s.setMem (s.mem.write c v)).mem.read c = v := by
  rw [State.mem_setMem, Memory.read_write, if_pos rfl]

theorem sameMemBut_setMem_write (s : State) (c : Nat) (v : Byte) : SameMemBut c s (s.setMem (s.mem.write c v)) :=
  fun d hd => by rw [State.mem_setMem, Memory.read_write, if_neg hd]

theorem exec_ld {A B : Byte} {a b : RegIdx} (ha : A.toNat = a.val) (hb : B.toNat = b.val) (s : State) :
    exec (.ld A B) s = .next (s.setX a (s.mem.read (s.x b).toNat)) := by
  rw [exec, execLd, onRegs_names ha hb, State.address, State.memRead_byte]
  rfl

end Sys2Proof.Machine

namespace Sys2Proof

open Machine

/-- Settles O52: the state left is the one with the cell at register a's value written, and an 8-bit address is never out of
bounds (20_memory.md R67). -/
theorem stWritesOneCell : Obligations.StWritesOneCell := by
  intro A B s
  refine ⟨encodedAs_of_encode_eq rfl, fun a b ha hb => ?_, fun hbad => takes_invalidRegister_onRegs hbad s _⟩
  exact ⟨s.setMem (s.mem.write (s.address a) (s.x b)), exec_st ha hb s, State.read_setMem_write_same s _ _,
    sameMemBut_setMem_write s _ _, rfl, fun _ _ => rfl, rfl, rfl, rfl, rfl⟩

/-- Settles O53: a load is a register write whose value is read in the old state, so it may overwrite its own address. -/
theorem ldReadsOneCell : Obligations.LdReadsOneCell := by
  intro A B s
  refine ⟨encodedAs_of_encode_eq rfl, fun a b ha hb => ?_, fun hbad => takes_invalidRegister_onRegs hbad s _⟩
  exact exists_next_of_eq_setX (· = s.mem.read (s.x b).toNat) (exec_ld ha hb s) rfl

end Sys2Proof
end

section
/-! PROOFS. NOP, INT, IRET and HLT (48_system.md R230 to R234). -/

namespace Sys2Proof

open Machine

/-- Settles O55: each of the three answers the state it is given, with the advance already made. -/
theorem nopIntIretChangeNothing : Obligations.NopIntIretChangeNothing :=
  ⟨⟨fun _ => rfl, encodedAs_of_encode_eq rfl⟩, fun _ => ⟨fun _ => rfl, encodedAs_of_encode_eq rfl⟩,
    fun _ => rfl, encodedAs_of_encode_eq rfl⟩

/-- Settles O56: the state left differs in the run state alone, and a halted machine takes no step. -/
theorem hltHaltsForGood : Obligations.HltHaltsForGood := by
  intro s
  have hended : Ended (s.setRun .halted) := RunState.noConfusion
  exact ⟨encodedAs_of_encode_eq rfl, s.setRun .halted, rfl, rfl, rfl, fun _ _ => rfl, fun _ => rfl, rfl, rfl, rfl,
    step_of_not_running hended⟩

end Sys2Proof
end

section
/-! PROOFS. The two states in which a step can fault: the one before the fetch and the advanced one, each with nothing but the
run state changed (60_exceptions.md R252, R253). -/

namespace Sys2Proof.Machine

/-- An instruction of a running machine that ends faulted has raised, and its checks come before its first write. -/
theorem Effect.eq_raise_of_hasFaulted {i : Instr} {s t : State} (h : Effect i s t) (hr : s.run = .running)
    (ht : HasFaulted t) : ∃ e, t = s.raise e := by
  obtain ⟨k, hk⟩ := ht
  have hkeep : t.run ≠ s.run := fun e => by
    rw [hr, hk] at e
    cases e
  cases h with
  | raised _ _ e => exact ⟨e, rfl⟩
  | halted => cases hk
  | _ => exact absurd rfl hkeep

/-- A step that faults raises at the opcode fetch with pc above 255, or anywhere after the advance. -/
theorem eq_raise_of_step_hasFaulted {s t : State} (hr : s.run = .running) (h : step s = .next t) (ht : HasFaulted t) :
    (255 < s.pc.toNat ∧ t = s.raise ⟨.outOfBounds, some s.pc.toNat⟩) ∨
      (s.pc.toNat ≤ 255 ∧ ∃ e, t = (s.advance (s.mem.read s.pc.toNat)).raise e) := by
  cases step_effect h with
  | ended hne => exact absurd hr hne
  | fetchFault _ hp => exact .inl ⟨hp, rfl⟩
  | lookupFault e _ hp => exact .inr ⟨hp, e, rfl⟩
  | executed i _ _ hp _ he => exact .inr ⟨hp, (exec_effect i he).eq_raise_of_hasFaulted hr ht⟩

end Sys2Proof.Machine

namespace Sys2Proof

open Machine

/-- Settles O8: neither the raise nor the advance touches registers, fl, memory or events, and the advance alone moves pc. -/
theorem faultsLeaveStateButPc : Obligations.FaultsLeaveStateButPc := by
  intro s t hr h ht
  rcases eq_raise_of_step_hasFaulted hr h ht with ⟨hp, rfl⟩ | ⟨hp, e, rfl⟩
  · exact ⟨fun _ _ => rfl, rfl, fun _ => rfl, rfl, fun _ => ⟨rfl, rfl⟩, fun hle => absurd hp hle.not_gt⟩
  · refine ⟨fun _ _ => rfl, rfl, fun _ => rfl, rfl, fun hgt => absurd hp hgt.not_ge, fun _ => ?_⟩
    rw [State.pc_raise, s.toNat_pc_advance _ hp, operandCount_eq_div]

end Sys2Proof
end

section
/-! PROOFS. The load after a reset: the program's cells and the cells above it (70_reset_and_hazards.md R277, R278). -/

namespace Sys2Proof.Machine

theorem Memory.read_writeBytes_zero_of_lt (m : Memory) (vs : List Byte) {k : Nat} (h : k < vs.length) :
    (m.writeBytes 0 vs).read k = vs[k] := by
  rw [Memory.read_writeBytes, dif_pos ⟨k.zero_le, h⟩]
  rfl

theorem Memory.read_writeBytes_zero_of_ge (m : Memory) {vs : List Byte} {k : Nat} (h : vs.length ≤ k) :
    (m.writeBytes 0 vs).read k = m.read k := by
  rw [Memory.read_writeBytes, dif_neg fun hk => hk.2.not_ge h]

end Sys2Proof.Machine

namespace Sys2Proof

open Machine

/-- Settles O57: the load is one write of the program's bytes from address 0 on, or the bound check's error. -/
theorem loadCopiesProgramVerbatim : Obligations.LoadCopiesProgramVerbatim :=
  fun memInit program =>
    ⟨fun hle => ⟨_, State.load_of_le hle, fun _ hk => memInit.read_writeBytes_zero_of_lt program hk,
      fun _ hk => memInit.read_writeBytes_zero_of_ge hk, rfl⟩,
     fun hgt => ⟨_, State.load_of_gt hgt⟩⟩

end Sys2Proof
end
